-- ==== Sys2Proof/Word.lean ====
section
/-! DEFINITION. The word types of the CA ISA (spec/00_scope.md R4, R6, R7). -/

namespace Sys2Proof

/-- A byte: 8 bits, always unsigned (R6). Registers, memory cells, operand bytes, output elements. -/
abbrev Byte := BitVec 8

/-- The program counter's word: 9 bits (R14). Values above 256 are unreachable (invariant of Safety.lean). -/
abbrev PcWord := BitVec 9

/-- The index of a register, 0 to 7 (R10). -/
abbrev RegIdx := Fin 8

/-- `zext_9(v)`: a byte widened to the program counter (R7). -/
def zext9 (b : Byte) : PcWord := b.setWidth 9

end Sys2Proof
end

