-- ==== Sys2Proof/Config.lean ====
section
/-! DEFINITION. The parameters of the block (spec/00_scope.md R4). A value "from source" is fixed by the
spec's source; a value "decision" is the spec's own and stands in the assumption log. The spec leaves
no value free, so no parameter here is opaque. The parameter `OPCODE_MAP` stands in Decode.lean. -/

namespace Sys2Proof.Config

/-- `MEMSIZE`, from source (R4, R22). -/
def memSize : Nat := 256

/-- `SP_INDEX`: register 7 is the stack pointer, from source (R4, R12). -/
def spIndex : RegIdx := 7

/-- `STACK_BASE`: reset value of register 7 and the StackUnderflow threshold, from source (R4, R43). -/
def stackBase : Byte := 0xF4

/-- `STACK_FLOOR`: a push at or below it faults. UNVERIFIED: the spec's decision D7 (log entry 7). -/
def stackFloor : Byte := 0x00

/-- `PC_RESET`, from source (R4, R14). -/
def pcReset : PcWord := 0

/-- `LOAD_BASE`: address of the first image byte, from source (R4, R50). -/
def loadBase : Nat := 0

/-- `REG_RESET`: reset value of registers 0 to 6. UNVERIFIED: the spec's decision D3 (log entry 3). -/
def regReset : Byte := 0x00

/-- `FLAG_RESET`: reset value of each flag. UNVERIFIED: the spec's decision D4 (log entry 4). -/
def flagReset : Bool := false

/-- `MEM_FILL`: what a memory byte that nothing has written reads as. UNVERIFIED: the spec's decision D5
(log entry 5). -/
def memFill : Byte := 0x00

end Sys2Proof.Config
end

