-- ==== Sys2Proof/Machine/State.lean ====
section
/-! DEFINITION. The state of the block, whole and as plain data (spec/10_state.md), the outcomes of a
step that are no next state, and the state after reset (R34). -/

namespace Sys2Proof.Machine

/-- The run state `run` (R24). -/
inductive RunState where
  /-- Steps are taken. -/
  | running
  /-- HLT was executed: the normal end of a run. -/
  | halted
  /-- A fault was raised: the abnormal end of a run. -/
  | failed
  deriving DecidableEq, Repr

/-- The six causes of a fault (spec/60_exceptions.md R150). Raising one is no stop of the model: it is a
next state with the fault record written and `run` = Failed (R158). -/
inductive FaultCause where
  /-- The opcode byte is not in the opcode map (R151). -/
  | illegalInstruction
  /-- A memory access has an address of 256 or more (R152). -/
  | outOfBounds
  /-- The divisor register of MOD holds 0 (R153). -/
  | divisionByZero
  /-- A pop with `x[7]` at or above 0xF4 (R154). -/
  | stackUnderflow
  /-- A push with `x[7]` at or below the stack floor (R155). -/
  | stackOverflow
  /-- A register operand byte is greater than 7 (R156). -/
  | registerIndexOutOfRange
  deriving DecidableEq, Repr

/-- The fault record (R25): its three fields `cause`, `info` and `at`. -/
structure FaultRecord where
  cause : FaultCause
  /-- The value R150 gives for the cause, as a number (DESIGN CHOICE, log entry 16). -/
  info : Nat
  /-- `at`: the value of `pc` at the start of the faulting step. -/
  atPc : PcWord
  deriving DecidableEq, Repr

/-- The three flags, three separate named bits (R17). -/
structure Flags where
  /-- `L`, less-than. -/
  l : Bool
  /-- `G`, greater-than. -/
  g : Bool
  /-- `E`, equal. -/
  e : Bool
  deriving DecidableEq, Repr

/-- Memory as data: (address, byte) pairs in the one canonical form of `Memory.wf`; an address that is
not listed reads as `Config.memFill`. -/
abbrev Memory := List Host.Cell

/-- The whole state of the block: the tuple that opens spec/10_state.md. "Nothing else is state." -/
structure State where
  /-- `x[0..7]` (R10); register 7 is the stack pointer (R12). -/
  regs : Vector Byte 8
  /-- `pc` (R14). -/
  pc : PcWord
  /-- `L`, `G`, `E` (R17). -/
  flags : Flags
  /-- `M[0..255]` (R22). -/
  mem : Memory
  /-- `run` (R24). -/
  run : RunState
  /-- `fault`: empty, or the record of the fault that stopped the core (R25). -/
  fault : Option FaultRecord
  /-- `out`: what PRN has emitted since reset, oldest first (R26). -/
  out : List Byte
  deriving DecidableEq, Repr

/-- Why `step` has no next state. The hardware's own faults are next states (see `FaultCause`); these are
its two terminal states, in which no step is enabled (R24, R87; spec/93_implementation_defined.md U17:
"stuck by design"). -/
inductive Fault where
  /-- Raised by `step` alone, when `run` = Halted. Safe: the model goes no further where the hardware
  takes no step either (DESIGN CHOICE, log entry 14). -/
  | coreHalted
  /-- Raised by `step` alone, when `run` = Failed. Safe: as above (DESIGN CHOICE, log entry 14). -/
  | coreFailed
  deriving DecidableEq, Repr

/-- Why an instruction has no meaning. -/
inductive Refusal where
  /-- Raised by a refused arm of `exec` alone. Safe. No arm is refused: every row has its meaning. -/
  | notModelled (mnemonic : String)
  deriving DecidableEq, Repr

/-- What executing an instruction, or a step, answers. -/
abbrev Result := Host.Outcome State Fault Refusal

/-- The state after reset (R34), with nothing loaded: every memory byte reads `MEM_FILL`. The values of
`x[0..6]`, of the flags and of the fill are the spec's decisions D3, D4 and D5 (log entries 3, 4, 5); that
the bare reset has the empty image is a DESIGN CHOICE (log entry 17). -/
def State.reset : State where
  regs := #v[Config.regReset, Config.regReset, Config.regReset, Config.regReset,
             Config.regReset, Config.regReset, Config.regReset, Config.stackBase]
  pc := Config.pcReset
  flags := ⟨Config.flagReset, Config.flagReset, Config.flagReset⟩
  mem := []
  run := .running
  fault := none
  out := []

end Sys2Proof.Machine
end

