-- ==== Sys2Proof/Machine/Memory.lean ====
section
/-! DEFINITION. The 256-byte memory as a canonical list (spec/10_state.md R22, R23) and its two raw
primitives (spec/20_memory.md R40, R41). -/

namespace Sys2Proof.Machine

/-- The byte a list of cells holds at an address; an unlisted address reads as `MEM_FILL` (decision D5). -/
def Memory.read : Memory → Nat → Byte
  | [], _ => Config.memFill
  | (k, v) :: rest, a => if a = k then v else Memory.read rest a

/-- Puts a cell in its place; a cell equal to the fill is not listed. -/
def Memory.write : Memory → Nat → Byte → Memory
  | [], a, v => if v = Config.memFill then [] else [(a, v)]
  | (k, w) :: rest, a, v =>
    if a < k then (if v = Config.memFill then (k, w) :: rest else (a, v) :: (k, w) :: rest)
    else if a = k then (if v = Config.memFill then rest else (a, v) :: rest)
    else (k, w) :: Memory.write rest a v

/-- The canonical form: addresses strictly rising and inside memory, no cell equal to the fill (DESIGN
CHOICE, log entry 20). -/
abbrev Memory.wf (m : Memory) : Prop :=
  m.Pairwise (fun c d => c.1 < d.1) ∧ ∀ c ∈ m, c.1 < Config.memSize ∧ c.2 ≠ Config.memFill

/-- `MemRead(addr, 1)`; `none` is OutOfBounds (R40). -/
def memRead (m : Memory) (a : Nat) : Option Byte :=
  if a < Config.memSize then some (m.read a) else none

/-- `MemWrite(addr, 1, v)`: stores `v mod 256`; `none` is OutOfBounds (R41). -/
def memWrite (m : Memory) (a v : Nat) : Option Memory :=
  if a < Config.memSize then some (m.write a (BitVec.ofNat 8 v)) else none

/-- The memory that holds a run of bytes from an address on, and the fill elsewhere. -/
def Memory.ofBytes : Nat → List Byte → Memory
  | _, [] => []
  | a, b :: rest =>
    if b = Config.memFill then Memory.ofBytes (a + 1) rest else (a, b) :: Memory.ofBytes (a + 1) rest

/-- Stores a run of bytes from an address on; what would lie past the end of memory is dropped. -/
def Memory.place : Memory → Nat → List Byte → Memory
  | m, _, [] => m
  | m, a, b :: rest => Memory.place ((memWrite m a b.toNat).getD m) (a + 1) rest

end Sys2Proof.Machine
end

