-- ==== Sys2Proof/Machine/Ops.lean ====
section
/-! DEFINITION. The named operations over the state: registers, program counter, output, run state,
raising a fault (spec/60_exceptions.md R158) and the two stack primitives (spec/20_memory.md R42, R43).
There is no return from a fault beside it: the hardware has none (R161). -/

namespace Sys2Proof.Machine

/-- `x[r]` (R10). -/
def State.reg (s : State) (r : RegIdx) : Byte := s.regs.get r

/-- `x[r] <- v` (R10). Register 7 is written as any other (R12). -/
def State.setReg (s : State) (r : RegIdx) (v : Byte) : State := { s with regs := s.regs.set r.val v r.isLt }

/-- `SP`, another name for `x[7]` (R12). -/
def State.sp (s : State) : Byte := s.reg Config.spIndex

/-- `SP <- v`. -/
def State.setSp (s : State) (v : Byte) : State := s.setReg Config.spIndex v

/-- `pc <- target` (R14). -/
def State.setPc (s : State) (p : PcWord) : State := { s with pc := p }

/-- `pc <- pc + n`: an instruction's own advance (R86). -/
def State.advance (s : State) (n : PcWord) : State := s.setPc (s.pc + n)

/-- The three flags replaced together. -/
def State.withFlags (s : State) (f : Flags) : State := { s with flags := f }

/-- Memory replaced. -/
def State.setMem (s : State) (m : Memory) : State := { s with mem := m }

/-- `Emit(v)`: appends to the output stream (R26). -/
def State.emit (s : State) (v : Byte) : State := { s with out := s.out ++ [v] }

/-- `run <- Halted` (R140). -/
def State.halt (s : State) : State := { s with run := .halted }

/-- The state a fault leaves (R158): the record written with `at` = the unchanged `pc`, `run` = Failed,
nothing else changed. -/
def State.failWith (s : State) (c : FaultCause) (info : Nat) : State :=
  { s with run := .failed, fault := some { cause := c, info := info, atPc := s.pc } }

/-- `raise Cause(info)`: taking a fault is a next state (R158). It is always applied to the state as it
was at the start of the step, so every pending write is discarded (R84). -/
def raiseFault (s : State) (c : FaultCause) (info : Nat) : Result := .next (s.failWith c info)

/-- The code column of R150. UNVERIFIED: the numbers are the spec's decision D10 (log entry 10). -/
def FaultCause.code : FaultCause → Nat
  | .illegalInstruction => 1
  | .outOfBounds => 2
  | .divisionByZero => 3
  | .stackUnderflow => 4
  | .stackOverflow => 5
  | .registerIndexOutOfRange => 6

/-- `Push(v)` (R42): the overflow check, then the decrement and the store at the new `SP`; the rest of
the instruction goes on from the state after the push. `MemWrite` masks `v` to 8 bits (R41). -/
def pushByte (s : State) (v : Nat) (k : State → Result) : Result :=
  if s.sp ≤ Config.stackFloor then raiseFault s .stackOverflow s.sp.toNat
  else
    match memWrite s.mem (s.sp - 1#8).toNat v with
    | none => raiseFault s .outOfBounds (s.sp - 1#8).toNat
    | some m => k ((s.setSp (s.sp - 1#8)).setMem m)

/-- `Pop()` (R43): the underflow check, then the read, the clearing of the cell and the increment; the
rest of the instruction goes on with the byte read and the state after the pop. -/
def popByte (s : State) (k : Byte → State → Result) : Result :=
  if Config.stackBase ≤ s.sp then raiseFault s .stackUnderflow s.sp.toNat
  else
    match memRead s.mem s.sp.toNat, memWrite s.mem s.sp.toNat 0 with
    | some v, some m => k v ((s.setMem m).setSp (s.sp + 1#8))
    | _, _ => raiseFault s .outOfBounds s.sp.toNat

end Sys2Proof.Machine
end

