-- ==== Sys2Proof/Machine/Operands.lean ====
section
/-! DEFINITION. The operand forms: a register operand byte and its validation (spec/30_encoding.md R62,
spec/40_execution_cycle.md R83). A literal operand byte is used as it stands (R63) and needs no operation. -/

namespace Sys2Proof.Machine

/-- The register a register operand byte names: the whole byte is the index (R62). -/
def regIndex (b : Byte) : Option RegIdx :=
  if h : b.toNat < 8 then some ⟨b.toNat, h⟩ else none

/-- The operand byte that names a register. -/
def regByte (r : RegIdx) : Byte := BitVec.ofNat 8 r.val

/-- VALIDATE for one register operand (R83): goes on with the register, or raises
RegisterIndexOutOfRange with the operand byte (R156). -/
def onReg (s : State) (b : Byte) (k : RegIdx → Result) : Result :=
  match regIndex b with
  | some r => k r
  | none => raiseFault s .registerIndexOutOfRange b.toNat

/-- VALIDATE for two register operands, first `opA`, then `opB` (R83). -/
def onRegs (s : State) (a b : Byte) (k : RegIdx → RegIdx → Result) : Result :=
  onReg s a fun ra => onReg s b fun rb => k ra rb

end Sys2Proof.Machine
end

