-- ==== Sys2Proof/Machine/Alu.lean ====
section
/-! DEFINITION. The ALU's byte functions (spec/42_alu.md R110) and the two shapes of instruction that use
them. `cmp` is in Flags.lean. -/

namespace Sys2Proof.Machine

/-- add(a, b) = (a + b) mod 256. -/
def aluAdd (a b : Byte) : Byte := a + b

/-- mul(a, b) = (a × b) mod 256. -/
def aluMul (a b : Byte) : Byte := a * b

/-- rem(a, b) = a mod b, unsigned; used only with b ≠ 0 (R114). -/
def aluRem (a b : Byte) : Byte := BitVec.umod a b

/-- and(a, b), bit by bit. -/
def aluAnd (a b : Byte) : Byte := a &&& b

/-- or(a, b), bit by bit. -/
def aluOr (a b : Byte) : Byte := a ||| b

/-- xor(a, b), bit by bit. -/
def aluXor (a b : Byte) : Byte := a ^^^ b

/-- not(a) = 255 - a: every bit inverted. -/
def aluNot (a : Byte) : Byte := ~~~a

/-- shl(a, b) = (a × 2^b) mod 256: the whole byte is the count (R119, decision D12). -/
def aluShl (a b : Byte) : Byte := a <<< b.toNat

/-- shr(a, b) = a div 2^b: logical, the whole byte is the count (R120, decision D12). -/
def aluShr (a b : Byte) : Byte := a >>> b.toNat

/-- "regA ← regA op regB" (R110): both registers are read before the destination is written; 3 bytes. -/
def aluRR (f : Byte → Byte → Byte) (a b : Byte) (s : State) : Result :=
  onRegs s a b fun ra rb => .next ((s.setReg ra (f (s.reg ra) (s.reg rb))).advance 3)

end Sys2Proof.Machine
end

