-- ==== Sys2Proof/Machine/Flags.lean ====
section
/-! DEFINITION. The one flag computation of the hardware (spec/10_state.md R18). -/

namespace Sys2Proof.Machine

/-- `cmp(a, b)` of the ALU: the three flags of two bytes compared as unsigned numbers (R18, R110). -/
def compareBytes (a b : Byte) : Flags where
  l := BitVec.ult a b
  g := BitVec.ult b a
  e := a == b

/-- `SetFlags(a, b)` (R18). -/
def setFlags (s : State) (a b : Byte) : State := s.withFlags (compareBytes a b)

end Sys2Proof.Machine
end

