-- ==== Sys2Proof/Machine/Arithmetic.lean ====
section
/-! DEFINITION. Meanings of the ALU instructions (spec/42_alu.md): ADD, ADDI, MUL, MOD, AND, OR, XOR, NOT,
SHL, SHR, CMP. -/

namespace Sys2Proof.Machine

/-- ADD regA, regB (R111). -/
def execAdd (a b : Byte) (s : State) : Result := aluRR aluAdd a b s

/-- ADDI reg, value (R112). -/
def execAddi (a v : Byte) (s : State) : Result :=
  onReg s a fun r => .next ((s.setReg r (aluAdd (s.reg r) v)).advance 3)

/-- MUL regA, regB (R113). -/
def execMul (a b : Byte) (s : State) : Result := aluRR aluMul a b s

/-- MOD regA, regB (R114): the check for a zero divisor comes before every write. -/
def execMod (a b : Byte) (s : State) : Result :=
  onRegs s a b fun ra rb =>
    if s.reg rb = 0#8 then raiseFault s .divisionByZero b.toNat
    else .next ((s.setReg ra (aluRem (s.reg ra) (s.reg rb))).advance 3)

/-- AND regA, regB (R115). -/
def execAnd (a b : Byte) (s : State) : Result := aluRR aluAnd a b s

/-- OR regA, regB (R116). -/
def execOr (a b : Byte) (s : State) : Result := aluRR aluOr a b s

/-- XOR regA, regB (R117). -/
def execXor (a b : Byte) (s : State) : Result := aluRR aluXor a b s

/-- NOT regA: one operand, 2 bytes (R118, R67). -/
def execNot (a : Byte) (s : State) : Result :=
  onReg s a fun r => .next ((s.setReg r (aluNot (s.reg r))).advance 2)

/-- SHL regA, regB (R119). -/
def execShl (a b : Byte) (s : State) : Result := aluRR aluShl a b s

/-- SHR regA, regB (R120). -/
def execShr (a b : Byte) (s : State) : Result := aluRR aluShr a b s

/-- CMP regA, regB (R121): writes the flags and no register. -/
def execCmp (a b : Byte) (s : State) : Result :=
  onRegs s a b fun ra rb => .next ((setFlags s (s.reg ra) (s.reg rb)).advance 3)

end Sys2Proof.Machine
end

