-- ==== Sys2Proof/Machine/ControlFlow.lean ====
section
/-! DEFINITION. Meanings of JMP, JEQ, JNE, CALL, RET (spec/43_control_flow.md). -/

namespace Sys2Proof.Machine

/-- JMP reg (R130): nothing is added to the target. -/
def execJmp (a : Byte) (s : State) : Result :=
  onReg s a fun r => .next (s.setPc (zext9 (s.reg r)))

/-- JEQ reg (R131): the index is validated whether or not the jump is taken. -/
def execJeq (a : Byte) (s : State) : Result :=
  onReg s a fun r => .next (if s.flags.e then s.setPc (zext9 (s.reg r)) else s.advance 2)

/-- JNE reg (R132): the index is validated whether or not the jump is taken. -/
def execJne (a : Byte) (s : State) : Result :=
  onReg s a fun r => .next (if s.flags.e then s.advance 2 else s.setPc (zext9 (s.reg r)))

/-- CALL reg (R133): pushes the address of the instruction after it, as one byte; the target is read
after the push. -/
def execCall (a : Byte) (s : State) : Result :=
  onReg s a fun r => pushByte s (s.pc.toNat + 2) fun t => .next (t.setPc (zext9 (t.reg r)))

/-- RET (R134). -/
def execRet (s : State) : Result :=
  popByte s fun v t => .next (t.setPc (zext9 v))

end Sys2Proof.Machine
end

