-- ==== Sys2Proof/Machine/DataMovement.lean ====
section
/-! DEFINITION. Meanings of LDI, PUSH, POP (spec/41_data_movement.md): phases 4 to 6 of the step. -/

namespace Sys2Proof.Machine

/-- LDI reg, value (R100). -/
def execLdi (a v : Byte) (s : State) : Result :=
  onReg s a fun r => .next ((s.setReg r v).advance 3)

/-- PUSH reg (R101): the value is read before `x[7]` changes (R104). -/
def execPush (a : Byte) (s : State) : Result :=
  onReg s a fun r => pushByte s (s.reg r).toNat fun t => .next (t.advance 2)

/-- POP reg (R102): the register is assigned after the increment, so POP r7 keeps the popped value
(R104). -/
def execPop (a : Byte) (s : State) : Result :=
  onReg s a fun r => popByte s fun v t => .next ((t.setReg r v).advance 2)

end Sys2Proof.Machine
end

