-- ==== Sys2Proof/Machine/System.lean ====
section
/-! DEFINITION. Meanings of HLT and PRN (spec/44_system.md). -/

namespace Sys2Proof.Machine

/-- HLT (R140): the program counter moves past the HLT byte (decision D13, log entry 13). -/
def execHlt (s : State) : Result := .next (s.advance 1).halt

/-- PRN reg (R141). -/
def execPrn (a : Byte) (s : State) : Result :=
  onReg s a fun r => .next ((s.emit (s.reg r)).advance 2)

end Sys2Proof.Machine
end

