-- ==== Sys2Proof/Syntax.lean ====
section
/-! DEFINITION. The abstract syntax: one constructor per row of spec/opcode_table.json, in the table's
order (spec/30_encoding.md R60, R66). -/

namespace Sys2Proof

/-- An instruction as decoded: its operation and its operand bytes exactly as they stand in memory. A
register operand is the whole byte (R62: the byte is not reduced to three bits), so an index above 7 is
a term of this type; WellFormed.lean refuses it, and its meaning raises RegisterIndexOutOfRange in the
validate phase (R83). -/
inductive Instr where
  /-- LDI reg, value (R100). -/
  | ldi (reg value : Byte)
  /-- PRN reg (R141). -/
  | prn (reg : Byte)
  /-- HLT (R140). -/
  | hlt
  /-- ADD regA, regB (R111). -/
  | add (regA regB : Byte)
  /-- MUL regA, regB (R113). -/
  | mul (regA regB : Byte)
  /-- PUSH reg (R101). -/
  | push (reg : Byte)
  /-- POP reg (R102). -/
  | pop (reg : Byte)
  /-- CALL reg (R133). -/
  | call (reg : Byte)
  /-- RET (R134). -/
  | ret
  /-- CMP regA, regB (R121). -/
  | cmp (regA regB : Byte)
  /-- JMP reg (R130). -/
  | jmp (reg : Byte)
  /-- JEQ reg (R131). -/
  | jeq (reg : Byte)
  /-- JNE reg (R132). -/
  | jne (reg : Byte)
  /-- AND regA, regB (R115). -/
  | and (regA regB : Byte)
  /-- OR regA, regB (R116). -/
  | or (regA regB : Byte)
  /-- XOR regA, regB (R117). -/
  | xor (regA regB : Byte)
  /-- NOT regA, one operand (R67, R118). -/
  | not (regA : Byte)
  /-- SHL regA, regB (R119). -/
  | shl (regA regB : Byte)
  /-- SHR regA, regB (R120). -/
  | shr (regA regB : Byte)
  /-- MOD regA, regB (R114). -/
  | mod (regA regB : Byte)
  /-- ADDI reg, value (R112). -/
  | addi (reg value : Byte)
  deriving DecidableEq, Repr

end Sys2Proof
end

