-- ==== Sys2Proof/WellFormed.lean ====
section
/-! DEFINITION. Well-formed instructions: every register operand byte is an index 0 to 7
(spec/30_encoding.md R62, R69). A literal operand is any byte (R63). -/

namespace Sys2Proof

/-- A register operand byte holds a legal index (R62: the whole byte is compared with 7). -/
def regOperandOk (b : Byte) : Bool := decide (b.toNat ≤ 7)

/-- The operand bytes that the instruction's format defines as register indices, first `opA`, then
`opB` (R83). -/
def Instr.regOperands : Instr → List Byte
  | .ldi a _ => [a]
  | .prn a => [a]
  | .hlt => []
  | .add a b => [a, b]
  | .mul a b => [a, b]
  | .push a => [a]
  | .pop a => [a]
  | .call a => [a]
  | .ret => []
  | .cmp a b => [a, b]
  | .jmp a => [a]
  | .jeq a => [a]
  | .jne a => [a]
  | .and a b => [a, b]
  | .or a b => [a, b]
  | .xor a b => [a, b]
  | .not a => [a]
  | .shl a b => [a, b]
  | .shr a b => [a, b]
  | .mod a b => [a, b]
  | .addi a _ => [a]

/-- Every register operand is a legal index. -/
def Instr.wellFormed (i : Instr) : Bool := i.regOperands.all regOperandOk

end Sys2Proof
end

