-- ==== Sys2Proof/Decode.lean ====
section
/-! DEFINITION. The opcode map, the decoder and the encoder (spec/30_encoding.md R60 to R71). Decoding is
total on any bytes and rejects by name. The opcode map is a parameter (R65): `decodeWith` and
`encodeWith` take any map, `decode` and `encode` use the default map of R66. -/

namespace Sys2Proof

/-- The 21 operations, in the order of the table of R66. -/
inductive Op where
  | ldi | prn | hlt | add | mul | push | pop | call | ret | cmp | jmp | jeq | jne
  | and | or | xor | not | shl | shr | mod | addi
  deriving DecidableEq, Repr

/-- The four formats (R60). -/
inductive Format where
  /-- Opcode only. -/
  | n
  /-- Opcode, register index. -/
  | r
  /-- Opcode, register index A, register index B. -/
  | rr
  /-- Opcode, register index, literal value. -/
  | ri
  deriving DecidableEq, Repr

/-- Number of operand bytes of a format (R60). -/
def Format.operandBytes : Format → Nat
  | .n => 0
  | .r => 1
  | .rr => 2
  | .ri => 2

/-- Length in bytes of an instruction of a format (R60). -/
def Format.length (f : Format) : Nat := 1 + f.operandBytes

/-- Every operation, in the table's order (R66). -/
def Op.all : List Op :=
  [.ldi, .prn, .hlt, .add, .mul, .push, .pop, .call, .ret, .cmp, .jmp, .jeq, .jne,
   .and, .or, .xor, .not, .shl, .shr, .mod, .addi]

/-- The format column of the table of R66. -/
def Op.format : Op → Format
  | .hlt | .ret => .n
  | .prn | .push | .pop | .call | .jmp | .jeq | .jne | .not => .r
  | .add | .mul | .cmp | .and | .or | .xor | .shl | .shr | .mod => .rr
  | .ldi | .addi => .ri

/-- `OPCODE_MAP`: which byte stands for which operation (R65). -/
abbrev OpcodeMap := Op → Byte

/-- The opcode map of R66. LDI, PRN and HLT are the source's; the other 18 are UNVERIFIED, the spec's
decision D1 (log entry 1). -/
def opcodeMap : OpcodeMap
  | .ldi => 0x82
  | .prn => 0x47
  | .hlt => 0x01
  | .add => 0xA0
  | .mul => 0xA2
  | .push => 0x45
  | .pop => 0x46
  | .call => 0x50
  | .ret => 0x11
  | .cmp => 0xA7
  | .jmp => 0x54
  | .jeq => 0x55
  | .jne => 0x56
  | .and => 0xA8
  | .or => 0xAA
  | .xor => 0xAB
  | .not => 0x69
  | .shl => 0xAC
  | .shr => 0xAD
  | .mod => 0xA4
  | .addi => 0xAE

/-- What the source asks of an opcode map: the values are distinct, and the three it prints are kept
(R65, decision D1). -/
def OpcodeMap.Legal (m : OpcodeMap) : Prop :=
  Function.Injective m ∧ m .ldi = 0x82 ∧ m .prn = 0x47 ∧ m .hlt = 0x01

/-- Looks an opcode byte up in the map; `none` where the byte is illegal (R64, R68, R81). -/
def lookupOp (m : OpcodeMap) (b : Byte) : Option Op := Op.all.find? fun o => m o == b

/-- Why bytes are no instruction. -/
inductive DecodeError where
  /-- The opcode byte is not in the map (R68). -/
  | illegalOpcode (b : Byte)
  /-- The bytes end before byte `k` of the instruction (byte 0 is the opcode). -/
  | noByte (k : Nat)
  deriving DecidableEq, Repr

/-- Takes one operand byte (format R). -/
def takeOne (c : Byte → Instr) : List Byte → Except DecodeError (Instr × List Byte)
  | [] => .error (.noByte 1)
  | a :: rest => .ok (c a, rest)

/-- Takes two operand bytes, in ascending address order (formats RR and RI). -/
def takeTwo (c : Byte → Byte → Instr) : List Byte → Except DecodeError (Instr × List Byte)
  | [] => .error (.noByte 1)
  | [_] => .error (.noByte 2)
  | a :: b :: rest => .ok (c a b, rest)

/-- The operand phase: as many bytes as the operation's format has (R60, R82). -/
def decodeOperands (o : Op) (rest : List Byte) : Except DecodeError (Instr × List Byte) :=
  match o with
  | .ldi => takeTwo .ldi rest
  | .prn => takeOne .prn rest
  | .hlt => .ok (.hlt, rest)
  | .add => takeTwo .add rest
  | .mul => takeTwo .mul rest
  | .push => takeOne .push rest
  | .pop => takeOne .pop rest
  | .call => takeOne .call rest
  | .ret => .ok (.ret, rest)
  | .cmp => takeTwo .cmp rest
  | .jmp => takeOne .jmp rest
  | .jeq => takeOne .jeq rest
  | .jne => takeOne .jne rest
  | .and => takeTwo .and rest
  | .or => takeTwo .or rest
  | .xor => takeTwo .xor rest
  | .not => takeOne .not rest
  | .shl => takeTwo .shl rest
  | .shr => takeTwo .shr rest
  | .mod => takeTwo .mod rest
  | .addi => takeTwo .addi rest

/-- The decoder over an opcode map: the instruction at the head of the bytes and the bytes after it. The
opcode byte alone decides the format (R60, R64); an unknown opcode is illegal and no operand is looked at
(R151). -/
def decodeWith (m : OpcodeMap) : List Byte → Except DecodeError (Instr × List Byte)
  | [] => .error (.noByte 0)
  | b :: rest =>
    match lookupOp m b with
    | none => .error (.illegalOpcode b)
    | some o => decodeOperands o rest

/-- The decoder of the hardware: the map of R66. -/
def decode (bytes : List Byte) : Except DecodeError (Instr × List Byte) := decodeWith opcodeMap bytes

/-- The operation of an instruction (R66). -/
def Instr.op : Instr → Op
  | .ldi _ _ => .ldi
  | .prn _ => .prn
  | .hlt => .hlt
  | .add _ _ => .add
  | .mul _ _ => .mul
  | .push _ => .push
  | .pop _ => .pop
  | .call _ => .call
  | .ret => .ret
  | .cmp _ _ => .cmp
  | .jmp _ => .jmp
  | .jeq _ => .jeq
  | .jne _ => .jne
  | .and _ _ => .and
  | .or _ _ => .or
  | .xor _ _ => .xor
  | .not _ => .not
  | .shl _ _ => .shl
  | .shr _ _ => .shr
  | .mod _ _ => .mod
  | .addi _ _ => .addi

/-- The operand bytes of an instruction, in ascending address order (R61). -/
def Instr.operandBytes : Instr → List Byte
  | .ldi a v => [a, v]
  | .prn a => [a]
  | .hlt => []
  | .add a b => [a, b]
  | .mul a b => [a, b]
  | .push a => [a]
  | .pop a => [a]
  | .call a => [a]
  | .ret => []
  | .cmp a b => [a, b]
  | .jmp a => [a]
  | .jeq a => [a]
  | .jne a => [a]
  | .and a b => [a, b]
  | .or a b => [a, b]
  | .xor a b => [a, b]
  | .not a => [a]
  | .shl a b => [a, b]
  | .shr a b => [a, b]
  | .mod a b => [a, b]
  | .addi a v => [a, v]

/-- The encoder over an opcode map: opcode byte, then the operand bytes (R60, R61). -/
def encodeWith (m : OpcodeMap) (i : Instr) : List Byte := m i.op :: i.operandBytes

/-- The encoder of the hardware: the map of R66. -/
def encode (i : Instr) : List Byte := encodeWith opcodeMap i

/-- The low `n` bytes of `w`, the most significant first: the byte at the lowest address holds the
highest bits (R61). -/
def bytesOfWord : Nat → Nat → List Byte
  | 0, _ => []
  | n + 1, w => bytesOfWord n (w / 256) ++ [BitVec.ofNat 8 w]

/-- The bytes of an opcode-table word of `nbits` bits, lowest address first, with zero bytes after it up
to the longest instruction (3 bytes). The table, as R61, numbers an instruction as one number whose
highest bits are the opcode byte. DEDUCED from R61 and the table's "match" column (log entry 18). -/
def tableBytes (nbits w : Nat) : List Byte :=
  bytesOfWord (nbits / 8) w ++ List.replicate (3 - nbits / 8) 0

/-- The instruction the decoder reads from an opcode-table word. -/
def decodeTableWord (nbits w : Nat) : Option Instr :=
  match decode (tableBytes nbits w) with
  | .ok (i, _) => some i
  | .error _ => none

end Sys2Proof
end

