-- ==== Sys2Proof/Machine/Fetch.lean ====
section
/-! DEFINITION. Phases 1 to 3 of the step: opcode fetch, decode, operand fetch
(spec/40_execution_cycle.md R80 to R82). -/

namespace Sys2Proof.Machine

/-- The fault a phase before the commit raises: its cause and info (R150). -/
abbrev Trap := FaultCause × Nat

/-- The bytes at `a`, `a + 1`, …, at most `n`, up to the first address that is out of bounds. A read has no
side effect (R40, R49), so offering the decoder bytes it does not take changes nothing (DEDUCED, log entry
19). -/
def fetchBytes (m : Memory) (a : Nat) : Nat → List Byte
  | 0 => []
  | n + 1 =>
    match memRead m a with
    | none => []
    | some b => b :: fetchBytes m (a + 1) n

/-- FETCH, DECODE, OPERANDS: the instruction at `pc`, or the first fault met. A byte the decoder asks for
and memory does not have is OutOfBounds at its address (R81, R82); an opcode outside the map is
IllegalInstruction (R151). -/
def fetchInstr (s : State) : Except Trap Instr :=
  match decode (fetchBytes s.mem s.pc.toNat 3) with
  | .ok (i, _) => .ok i
  | .error (.illegalOpcode b) => .error (.illegalInstruction, b.toNat)
  | .error (.noByte k) => .error (.outOfBounds, s.pc.toNat + k)

end Sys2Proof.Machine
end

