-- ==== Sys2Proof/Machine/Step.lean ====
section
/-! DEFINITION. One step of the block (spec/40_execution_cycle.md R80), and the host's way to place an
instruction where the next step fetches it. -/

namespace Sys2Proof.Machine

/-- One step: one whole instruction or one fault, taken only while `run` is Running (R33, R80). In Halted
and Failed no step is enabled (R24, R87; DESIGN CHOICE, log entry 14). The checks of `run` and of the fetch
stand here and not in `exec` (DESIGN CHOICE, log entry 15). -/
def step (s : State) : Host.Outcome State Fault Refusal :=
  match s.run with
  | .halted => .fault .coreHalted
  | .failed => .fault .coreFailed
  | .running =>
    match fetchInstr s with
    | .error t => raiseFault s t.1 t.2
    | .ok i => exec i s

/-- `s` with an opcode-table word's bytes at `pc`, and what the fetch needs besides: a running core, whose
fault record is then empty (R25). Stands for the load from outside (R31, R183; log entry 17). -/
def State.withFetchWord (s : State) (nbits w : Nat) : State :=
  { s with mem := Memory.place s.mem s.pc.toNat (tableBytes nbits w), run := .running, fault := none }

end Sys2Proof.Machine
end

