-- ==== Sys2Proof/Machine/HostPort.lean ====
section
/-! DEFINITION. The block's boundary (spec/10_state.md R20, R30 to R32; spec/44_system.md R142;
spec/70_reset_and_hazards.md R180 to R184): reset, the load port and the observation outputs. -/

namespace Sys2Proof.Machine

/-- `IMAGE`: exactly 256 bytes, by type (R183, R184). -/
abbrev Image := Vector Byte 256

/-- The image of a run of bytes: byte `k` at address `k`, `MEM_FILL` where the bytes do not reach; `none`
for more than 256 bytes, which the host refuses before the run (R183, R184; decision D20, log entry 21). -/
def imageOfBytes (bytes : List Byte) : Option Image :=
  if h : bytes.length ≤ 256 then
    some ⟨(bytes ++ List.replicate (256 - bytes.length) Config.memFill).toArray, by simp; omega⟩
  else none

/-- The load port: memory becomes the image, from address 0 on (R31, R183). Used after reset, before the
first step. -/
def loadImage (image : Image) (s : State) : State :=
  s.setMem (Memory.ofBytes Config.loadBase image.toList)

/-- The reset input, in any run state: every piece of state at its reset value, memory the image; nothing
of the state before survives (R30, R34, R180). -/
def applyReset (image : Image) (_s : State) : State := loadImage image State.reset

/-- The packed view of the flags, `0b00000LGE`, for observation only (R20; decision D14, log entry 12). -/
def packedFlags (f : Flags) : Byte :=
  (if f.l then 4 else 0) ||| (if f.g then 2 else 0) ||| (if f.e then 1 else 0)

/-- What the host can read (R32): `run`, `fault` and `out` at any time, the rest of the state only when
`run` is Halted or Failed. -/
structure Observation where
  run : RunState
  fault : Option FaultRecord
  out : List Byte
  whole : Option State
  deriving DecidableEq, Repr

/-- The observation outputs of a state (R32). -/
def observe (s : State) : Observation where
  run := s.run
  fault := s.fault
  out := s.out
  whole := if s.run = .running then none else some s

/-- The character of a decimal digit. -/
def digitChar (d : Nat) : Char := Char.ofNat (48 + d)

/-- The decimal digits of an output element, most significant first: no sign, no leading zeros (R142). -/
def decimalDigits (v : Byte) : List Char :=
  if v.toNat < 10 then [digitChar v.toNat]
  else if v.toNat < 100 then [digitChar (v.toNat / 10), digitChar (v.toNat % 10)]
  else [digitChar (v.toNat / 100), digitChar (v.toNat / 10 % 10), digitChar (v.toNat % 10)]

/-- The console line of an output element: its digits, then one LF (R142; decision D15, log entry 11). -/
def outputLine (v : Byte) : List Char := decimalDigits v ++ ['\n']

/-- The console text of a run (R26, R142). -/
def consoleText (s : State) : List Char := s.out.flatMap outputLine

end Sys2Proof.Machine
end

