-- ==== Sys2Proof/Safety.lean ====
section
/-! DEFINITION. What claims are stated in: runs, clean and failed ends (spec/40_execution_cycle.md R87),
and the invariant of the state that every step keeps. -/

namespace Sys2Proof.Machine

/-- `t` is reached from `s` by steps. -/
inductive Reaches : State → State → Prop where
  | refl (s : State) : Reaches s s
  | tail {s t u : State} : Reaches s t → step t = .next u → Reaches s u

/-- A run that never fails. -/
def SafeRun (s : State) : Prop := ∀ t, Reaches s t → t.run ≠ .failed

/-- A run that ends by HLT (R87, R140). -/
def EndsCleanly (s : State) : Prop := ∃ t, Reaches s t ∧ t.run = .halted

/-- The record tells the truth about the state it stands in: `at` is the unchanged `pc`, and cause and
info are as the table of R150 says of the untouched state (R25, R150, R159). -/
def FaultRecord.Explains (r : FaultRecord) (s : State) : Prop :=
  r.atPc = s.pc ∧
  match r.cause with
  | .illegalInstruction =>
      ∃ b, memRead s.mem s.pc.toNat = some b ∧ lookupOp opcodeMap b = none ∧ r.info = b.toNat
  | .outOfBounds => r.info = 256 ∧ 254 ≤ s.pc.toNat
  | .divisionByZero => ∃ q : RegIdx, r.info = q.val ∧ s.reg q = 0#8
  | .stackUnderflow => r.info = s.sp.toNat ∧ 0xF4 ≤ s.sp.toNat
  | .stackOverflow => r.info = s.sp.toNat ∧ s.sp = 0#8
  | .registerIndexOutOfRange => 8 ≤ r.info ∧ r.info ≤ 255

/-- The invariant of the state. -/
structure CoreInv (s : State) : Prop where
  /-- Memory is in its canonical form. -/
  memCanonical : s.mem.wf
  /-- The program counter is 0 to 256 (R14). -/
  pcInRange : s.pc.toNat ≤ 256
  /-- At most one flag is set: none before the first CMP, exactly one after (R18, R34). -/
  flagsExclusive : (s.flags.l = false ∨ s.flags.g = false) ∧ (s.flags.l = false ∨ s.flags.e = false) ∧
    (s.flags.g = false ∨ s.flags.e = false)
  /-- The fault record is written exactly in Failed (R25). -/
  recordIffFailed : s.fault.isSome = true ↔ s.run = .failed
  /-- A written record is true of the state. -/
  recordExplains : ∀ r, s.fault = some r → r.Explains s

end Sys2Proof.Machine
end

