-- ==== Sys2Proof/Certificates/Slice0/Obligations.lean ====
section
/-! DEFINITION. The statements for the provers. Each docstring names the rule or section of spec/ it
formalises; where a clause rests on one of the spec's own decisions (D<n> of spec/92_eei_decisions.md) or
on a choice of the model, it says so. The helpers come first; they are written from the spec, not from the
meanings. -/

namespace Sys2Proof.Claims

open Sys2Proof.Machine

/-- What `raise c(n)` leaves of a state, as R158 writes it: the record, the run state, nothing else. -/
def faulted (s : State) (c : FaultCause) (n : Nat) : State :=
  { s with run := .failed, fault := some { cause := c, info := n, atPc := s.pc } }

/-- Every byte of memory reads as before. -/
def MemSame (s t : State) : Prop := ∀ a, memRead t.mem a = memRead s.mem a

/-- Every byte of memory but the one at `addr` reads as before. -/
def MemSameBut (addr : Nat) (s t : State) : Prop := ∀ a, a ≠ addr → memRead t.mem a = memRead s.mem a

/-- Every register but `r` is as before. -/
def RegsSameBut (r : RegIdx) (s t : State) : Prop := ∀ q, q ≠ r → t.reg q = s.reg q

/-- Flags, run state, fault record and output are as before. -/
def StatusSame (s t : State) : Prop :=
  t.flags = s.flags ∧ t.run = s.run ∧ t.fault = s.fault ∧ t.out = s.out

/-- The one effect of a register instruction: `x[r]` becomes `v`, the program counter moves `n` on,
everything else is as before. -/
def WritesReg (s t : State) (r : RegIdx) (v : Byte) (n : PcWord) : Prop :=
  t.reg r = v ∧ RegsSameBut r s t ∧ t.pc = s.pc + n ∧ MemSame s t ∧ StatusSame s t

/-- `exec i s` completes in a state that satisfies `P`. -/
def CompletesWith (i : Instr) (s : State) (P : State → Prop) : Prop := ∃ t, exec i s = .next t ∧ P t

/-- The address a push stores to: the old `SP` minus 1 (R46). -/
def pushAddr (s : State) : Nat := (s.sp - 1#8).toNat

/-- The address a pop reads and clears: the old `SP` (R46). -/
def popAddr (s : State) : Nat := s.sp.toNat

/-- The instruction is one of the four that access memory as data (R46). -/
def isStackInstr : Instr → Bool
  | .push _ | .call _ | .pop _ | .ret => true
  | .ldi _ _ | .prn _ | .hlt | .add _ _ | .mul _ _ | .cmp _ _ | .jmp _ | .jeq _ | .jne _ | .and _ _
  | .or _ _ | .xor _ _ | .not _ | .shl _ _ | .shr _ _ | .mod _ _ | .addi _ _ => false

/-- The registers a register operand byte names: one, or none for a byte above 7. -/
def named (b : Byte) : List RegIdx := (regIndex b).toList

/-- The "reads" column of the table of R11. -/
def readRegs (s : State) : Instr → List RegIdx
  | .ldi _ _ | .hlt => []
  | .addi a _ | .not a | .jmp a | .prn a => named a
  | .add a b | .mul a b | .mod a b | .and a b | .or a b | .xor a b | .shl a b | .shr a b | .cmp a b =>
      named a ++ named b
  | .push a | .call a => 7 :: named a
  | .pop _ | .ret => [7]
  | .jeq a => if s.flags.e then named a else []
  | .jne a => if s.flags.e then [] else named a

/-- The "writes" column of the table of R11. -/
def writtenRegs : Instr → List RegIdx
  | .ldi a _ | .addi a _ | .not a => named a
  | .add a _ | .mul a _ | .mod a _ | .and a _ | .or a _ | .xor a _ | .shl a _ | .shr a _ => named a
  | .push _ | .call _ | .ret => [7]
  | .pop a => 7 :: named a
  | .cmp _ _ | .jmp _ | .jeq _ | .jne _ | .prn _ | .hlt => []

/-- The value of the register an operand byte names, as a number. -/
def valueOf (s : State) (b : Byte) : Nat :=
  match regIndex b with
  | some r => (s.reg r).toNat
  | none => 0

/-- The target of a CALL, read after the push: register 7 is then one less (R15, R133). -/
def callTarget (s : State) (b : Byte) : Nat :=
  match regIndex b with
  | some r => if r = 7 then (s.sp - 1#8).toNat else (s.reg r).toNat
  | none => 0

/-- The table of R15: the new `pc` of an instruction that commits. -/
def nextPc (s : State) : Instr → Nat
  | .hlt => s.pc.toNat + 1
  | .prn _ | .push _ | .pop _ | .not _ => s.pc.toNat + 2
  | .ldi _ _ | .addi _ _ | .add _ _ | .mul _ _ | .mod _ _ | .and _ _ | .or _ _ | .xor _ _ | .shl _ _
  | .shr _ _ | .cmp _ _ => s.pc.toNat + 3
  | .jmp a => valueOf s a
  | .jeq a => if s.flags.e then valueOf s a else s.pc.toNat + 2
  | .jne a => if s.flags.e then s.pc.toNat + 2 else valueOf s a
  | .call a => callTarget s a
  | .ret => (s.mem.read s.sp.toNat).toNat

/-- The instruction's own fault condition, phase 5 (R84). -/
def ownFault (s : State) (opB : Byte) : Op → Option (FaultCause × Nat)
  | .mod => if valueOf s opB = 0 then some (.divisionByZero, opB.toNat) else none
  | .push | .call => if s.sp.toNat = 0 then some (.stackOverflow, s.sp.toNat) else none
  | .pop | .ret => if 0xF4 ≤ s.sp.toNat then some (.stackUnderflow, s.sp.toNat) else none
  | .ldi | .prn | .hlt | .add | .mul | .cmp | .jmp | .jeq | .jne | .and | .or | .xor | .not | .shl | .shr
  | .addi => none

/-- The first fault in phase order (R160), from the bytes of memory and the table of formats: opcode fetch,
decode, operand fetch, index validation, the instruction's own condition. -/
def firstFault (s : State) : Option (FaultCause × Nat) :=
  let p := s.pc.toNat
  let op := s.mem.read p
  let opA := s.mem.read (p + 1)
  let opB := s.mem.read (p + 2)
  if 256 ≤ p then some (.outOfBounds, p)
  else
    match lookupOp opcodeMap op with
    | none => some (.illegalInstruction, op.toNat)
    | some o =>
      if o.format ≠ .n ∧ 256 ≤ p + 1 then some (.outOfBounds, p + 1)
      else if (o.format = .rr ∨ o.format = .ri) ∧ 256 ≤ p + 2 then some (.outOfBounds, p + 2)
      else if o.format ≠ .n ∧ 7 < opA.toNat then some (.registerIndexOutOfRange, opA.toNat)
      else if o.format = .rr ∧ 7 < opB.toNat then some (.registerIndexOutOfRange, opB.toNat)
      else ownFault s opB o

/-- An instruction as one number, the byte at the lowest address in the highest bits (R61). -/
def tableWord (i : Instr) : Nat :=
  match i.operandBytes with
  | [] => (opcodeMap i.op).toNat
  | [a] => (opcodeMap i.op).toNat * 256 + a.toNat
  | a :: b :: _ => (opcodeMap i.op).toNat * 65536 + a.toNat * 256 + b.toNat

/-- `n` executions of one instruction, each from the state the one before left. -/
def execTimes (i : Instr) : Nat → State → Option State
  | 0, s => some s
  | n + 1, s =>
    match execTimes i n s with
    | none => none
    | some t =>
      match exec i t with
      | .next u => some u
      | _ => none

/-- The number a list of digit characters writes. -/
def digitsValue (cs : List Char) : Nat := cs.foldl (fun n c => 10 * n + (c.toNat - 48)) 0

end Sys2Proof.Claims

open Sys2Proof Sys2Proof.Machine Sys2Proof.Claims

/-! ### Reset, the host's port -/

/-- The table of R34, R180: what reset leaves, from any state. Registers 0 to 6, the flags and the fill
are the spec's decisions D3, D4, D5 (log entries 3, 4, 5); that the bare `State.reset` holds the empty
image is the model's choice (log entry 17). -/
def Obligations.ResetLeavesTheListedValues : Prop :=
  (∀ (image : Image) (s : State),
    let t := applyReset image s
    (∀ r : RegIdx, r ≠ 7 → t.reg r = 0#8) ∧ t.reg 7 = 0xF4 ∧ t.pc = 0 ∧ t.flags = ⟨false, false, false⟩ ∧
    t.run = .running ∧ t.fault = none ∧ t.out = [] ∧
    ∀ k : Fin 256, memRead t.mem k.val = some image[k]) ∧
  (∀ k : Fin 256, memRead State.reset.mem k.val = some 0#8) ∧
  ∃ empty : Image, imageOfBytes [] = some empty ∧ ∀ s, applyReset empty s = State.reset

/-- R183, R184: a run of at most 256 bytes becomes the image that holds byte `k` at address `k` and 0x00
beyond; a longer one is refused. The fill and the refusal are the spec's decisions D5 and D20 (log entries
5, 21). -/
def Obligations.ImageHoldsTheLoadedBytes : Prop :=
  ∀ bytes : List Byte,
    (bytes.length ≤ 256 → ∃ image, imageOfBytes bytes = some image ∧
      ∀ s (k : Fin 256), memRead (applyReset image s).mem k.val = some (bytes.getD k.val 0)) ∧
    (256 < bytes.length → imageOfBytes bytes = none)

/-- R181: the first step after reset takes its opcode from address 0, the first image byte. -/
def Obligations.FirstStepFetchesTheFirstImageByte : Prop :=
  ∀ (image : Image) (s : State),
    let r := applyReset image s
    (∀ i rest, decode [image[0], image[1], image[2]] = .ok (i, rest) → step r = exec i r) ∧
    (∀ b, decode [image[0], image[1], image[2]] = .error (.illegalOpcode b) →
      b = image[0] ∧ step r = .next (faulted r .illegalInstruction b.toNat))

/-- The invariant holds after reset, whatever the image. -/
def Obligations.CoreInvHoldsAfterReset : Prop :=
  CoreInv State.reset ∧ ∀ (image : Image) (s : State), CoreInv (applyReset image s)

/-- Every step keeps the invariant: canonical memory, `pc` at most 256, at most one flag, a fault record
exactly in Failed, and a record that is true of the untouched state (R14, R18, R25, R150, R159; the pc
range, the record and its info are the spec's decisions D2 and D10; the canonical form is the model's, log
entry 20). -/
def Obligations.StepKeepsCoreInv : Prop := ∀ s t, CoreInv s → step s = .next t → CoreInv t

/-- R20, R32: the host reads run state, fault and output always, the whole state only of a stopped core;
the packed flag byte is `0b00000LGE`. The spec's decisions D14, D18 (log entries 12, 22). -/
def Obligations.ObservationPortShowsTheRun : Prop :=
  (∀ s t : State, s.run = .running → (observe s = observe t ↔
    t.run = .running ∧ s.fault = t.fault ∧ s.out = t.out)) ∧
  (∀ s t : State, s.run ≠ .running → (observe s = observe t ↔ s = t)) ∧
  ∀ f : Flags, (packedFlags f).toNat = 4 * f.l.toNat + 2 * f.g.toNat + f.e.toNat

/-! ### Memory -/

/-- R40, R41 on canonical memory: a write inside memory succeeds, reads back masked to 8 bits, leaves every
other address alone; at 256 and above both accesses are OutOfBounds. -/
def Obligations.MemoryReadsBackWhatWasWritten : Prop :=
  ∀ (m : Memory) (a v : Nat), m.wf →
    (a < 256 → ∃ m', memWrite m a v = some m' ∧
      (∃ b, memRead m' a = some b ∧ b.toNat = v % 256) ∧ ∀ c, c ≠ a → memRead m' c = memRead m c) ∧
    (256 ≤ a → memWrite m a v = none ∧ memRead m a = none)

/-- Canonical memories that read alike at every address are the same data (the model's form, log entry
20). -/
def Obligations.MemoryFormIsCanonical : Prop :=
  ∀ m n : Memory, m.wf → n.wf → (∀ a, a < 256 → memRead m a = memRead n a) → m = n

/-- The table of data accesses (spec/20_memory.md, section 3): the four accesses with their addresses, and
that no other instruction reads or writes memory as data. That a push completes at every `SP` but 0, the
pop's threshold for a written register 7, and the values where register 7 is named, are the spec's decisions D7, D8,
D11 (log entries 7, 8, 9); the canonical memory is the model's choice (log entry 20). -/
def Obligations.OnlyStackInstructionsTouchMemory : Prop :=
  (∀ i s t, isStackInstr i = false → exec i s = .next t → MemSame s t) ∧
  (∀ i s m, isStackInstr i = false → ∃ t, exec i s = .next t ∧ exec i (s.setMem m) = .next (t.setMem m)) ∧
  (∀ (r : RegIdx) s, s.mem.wf → s.sp ≠ 0#8 → CompletesWith (.push (regByte r)) s fun t =>
    memRead t.mem (pushAddr s) = some (s.reg r) ∧ MemSameBut (pushAddr s) s t) ∧
  (∀ (r : RegIdx) s, s.mem.wf → s.sp ≠ 0#8 → CompletesWith (.call (regByte r)) s fun t =>
    (∃ b, memRead t.mem (pushAddr s) = some b ∧ b.toNat = (s.pc.toNat + 2) % 256) ∧
    MemSameBut (pushAddr s) s t) ∧
  (∀ (r : RegIdx) s, s.mem.wf → s.sp.toNat < 0xF4 → CompletesWith (.pop (regByte r)) s fun t =>
    some (t.reg r) = memRead s.mem (popAddr s) ∧ memRead t.mem (popAddr s) = some 0#8 ∧
    MemSameBut (popAddr s) s t) ∧
  (∀ s, s.mem.wf → s.sp.toNat < 0xF4 → CompletesWith .ret s fun t =>
    (∃ b, memRead s.mem (popAddr s) = some b ∧ t.pc.toNat = b.toNat) ∧
    memRead t.mem (popAddr s) = some 0#8 ∧ MemSameBut (popAddr s) s t)

/-- R55: a byte stored by a push is fetched by the very next step: a PUSH of the HLT opcode over the byte
after it halts the core. The spec's decisions D17 (log entry 22) and D1 (log entry 1). -/
def Obligations.PushedByteIsExecutedByTheNextStep : Prop :=
  ∀ (s : State) (r : RegIdx), s.mem.wf → s.run = .running →
    memRead s.mem s.pc.toNat = some 0x45 → memRead s.mem (s.pc.toNat + 1) = some (regByte r) →
    s.sp ≠ 0#8 → pushAddr s = s.pc.toNat + 2 → s.reg r = 0x01#8 →
    ∃ t u, step s = .next t ∧ step t = .next u ∧ u.run = .halted ∧ u.pc = s.pc + 3

/-! ### Registers, flags, program counter: who reads and writes what -/

/-- Bounds from the table of spec/10_state.md, section 1: no register outside an instruction's "writes"
column changes, and a register outside its "reads" column influences nothing but itself; it does not say
that the columns' registers are changed or matter. The last clause is POP's order, `x[7]` before `x[r]`:
that POP completes below 0xF4 and that POP r7 keeps the popped value are the spec's decisions D8 and D11
(log entries 8, 9). -/
def Obligations.RegistersReadAndWrittenAsTabulated : Prop :=
  (∀ i s t, exec i s = .next t → ∀ q, q ∉ writtenRegs i → t.reg q = s.reg q) ∧
  (∀ i s q v, q ∉ readRegs s i → ∃ t u, exec i s = .next t ∧ exec i (s.setReg q v) = .next u ∧
    RegsSameBut q t u ∧ u.pc = t.pc ∧ u.mem = t.mem ∧ StatusSame t u ∧
    (q ∉ writtenRegs i → u.reg q = v) ∧ (q ∈ writtenRegs i → t.run ≠ .failed → u.reg q = t.reg q)) ∧
  (∀ (r : RegIdx) s, s.sp.toNat < 0xF4 → CompletesWith (.pop (regByte r)) s fun t =>
    memRead s.mem (popAddr s) = some (t.reg r) ∧ (r ≠ 7 → t.reg 7 = s.reg 7 + 1#8))

/-- R18: `SetFlags` sets exactly the flag of the relation of the two bytes as unsigned numbers, and
nothing else. -/
def Obligations.SetFlagsSetsExactlyOneFlag : Prop :=
  ∀ (s : State) (a b : Byte),
    let t := setFlags s a b
    (t.flags.l = true ↔ a.toNat < b.toNat) ∧ (t.flags.g = true ↔ b.toNat < a.toNat) ∧
    (t.flags.e = true ↔ a.toNat = b.toNat) ∧ [t.flags.l, t.flags.g, t.flags.e].count true = 1 ∧
    (∀ q, t.reg q = s.reg q) ∧ t.pc = s.pc ∧ MemSame s t ∧ t.run = s.run ∧ t.fault = s.fault ∧
    t.out = s.out

/-- R19: CMP alone writes flags and writes all three; JEQ and JNE alone read a flag and read only `E`; a
fault changes no flag. -/
def Obligations.OnlyCmpWritesAndOnlyJeqJneReadFlags : Prop :=
  (∀ i s t, exec i s = .next t → (∀ a b, i ≠ .cmp a b) → t.flags = s.flags) ∧
  (∀ (a b : RegIdx) s, CompletesWith (.cmp (regByte a) (regByte b)) s fun t =>
    t.flags = compareBytes (s.reg a) (s.reg b)) ∧
  (∀ (a b : RegIdx) s f, exec (.cmp (regByte a) (regByte b)) (s.withFlags f) =
    exec (.cmp (regByte a) (regByte b)) s) ∧
  (∀ i s f, (∀ a b, i ≠ .cmp a b) → ((∀ a, i ≠ .jeq a ∧ i ≠ .jne a) ∨ f.e = s.flags.e) →
    ∃ t, exec i s = .next t ∧ exec i (s.withFlags f) = .next (t.withFlags f)) ∧
  (∀ s t, s.run = .running → step s = .next t → t.run = .failed → t.flags = s.flags)

/-- The table of R15: the new `pc` of every instruction that fits below address 256, and `pc` unchanged on
any fault. That it fits is a premise of the first clause, under which the new `pc` is at most 256; the fault
of one that does not fit is `Obligations.OperandFetchAtTheEndOfMemory`. -/
def Obligations.ProgramCounterAsTabulated : Prop :=
  (∀ i s t, s.run = .running → s.pc.toNat + (encode i).length ≤ 256 → exec i s = .next t →
    (t.run = .failed → t.pc = s.pc) ∧
    (t.run ≠ .failed → t.pc.toNat = nextPc s i ∧ t.pc.toNat ≤ 256)) ∧
  (∀ s t, step s = .next t → t.run = .failed → t.pc = s.pc)

/-- R16: no instruction but CALL has an effect computed from `pc`, and only a commit writes it. -/
def Obligations.ProgramCounterIsDataForCallAlone : Prop :=
  (∀ i s p, (∀ a, i ≠ .call a) → ∃ t u, exec i s = .next t ∧ exec i (s.setPc p) = .next u ∧
    (∀ q, u.reg q = t.reg q) ∧ u.mem = t.mem ∧ u.flags = t.flags ∧ u.run = t.run ∧ u.out = t.out) ∧
  (∀ (r : RegIdx) s p, s.sp ≠ 0#8 → ∃ t u, exec (.call (regByte r)) s = .next t ∧
    exec (.call (regByte r)) (s.setPc p) = .next u ∧
    (∀ q, u.reg q = t.reg q) ∧ u.pc = t.pc ∧ StatusSame t u ∧
    (s.mem.wf → MemSameBut (pushAddr s) t u)) ∧
  (∀ s t, step s = .next t → t.run = .failed → t.pc = s.pc)

/-- R26: PRN alone appends to the output, one element; no instruction reads the output; along a run it only
grows. The text of an element (LF, decision D15, log entry 11) is added as one line. -/
def Obligations.OutputGrowsByPrnAlone : Prop :=
  (∀ i s t, exec i s = .next t → (∀ a, i ≠ .prn a) → t.out = s.out) ∧
  (∀ (r : RegIdx) s, CompletesWith (.prn (regByte r)) s fun t =>
    t.out = s.out ++ [s.reg r] ∧ consoleText t = consoleText s ++ outputLine (s.reg r)) ∧
  (∀ i s o, ∃ t e, exec i s = .next t ∧ t.out = s.out ++ e ∧
    exec i { s with out := o } = .next { t with out := o ++ e }) ∧
  (∀ s t, Reaches s t → s.out <+: t.out)

/-! ### Frames -/

/-- Frame of the instructions that write one register and store nothing: LDI, ADDI, NOT and the eight
two-register operations. Nothing but that register, `pc`, and on a fault `run` and the record, changes. -/
def Obligations.RegisterInstructionsFrame : Prop :=
  ∀ i a s t, (∃ b, i = .ldi a b ∨ i = .addi a b ∨ i = .not a ∨ i = .add a b ∨ i = .mul a b ∨ i = .mod a b ∨
      i = .and a b ∨ i = .or a b ∨ i = .xor a b ∨ i = .shl a b ∨ i = .shr a b) →
    exec i s = .next t →
    (∀ q, a ≠ regByte q → t.reg q = s.reg q) ∧ MemSame s t ∧ t.flags = s.flags ∧ t.out = s.out ∧
    ((t.run = s.run ∧ t.fault = s.fault) ∨ ∃ c n, t = faulted s c n)

/-- Frame of the instructions that write no register and no memory: CMP, PRN, HLT, JMP, JEQ, JNE. CMP alone
may change the flags, PRN alone the output, HLT alone the run state without a fault. -/
def Obligations.NoRegisterInstructionsFrame : Prop :=
  ∀ i s t, (i = .hlt ∨ ∃ a b, i = .cmp a b ∨ i = .prn a ∨ i = .jmp a ∨ i = .jeq a ∨ i = .jne a) →
    exec i s = .next t →
    (∀ q, t.reg q = s.reg q) ∧ MemSame s t ∧
    ((∀ a b, i ≠ .cmp a b) → t.flags = s.flags) ∧ ((∀ a, i ≠ .prn a) → t.out = s.out) ∧
    ((t.run = s.run ∧ t.fault = s.fault) ∨ (i = .hlt ∧ t.run = .halted ∧ t.fault = s.fault) ∨
      ∃ c n, t = faulted s c n)

/-- Frame of the storing instructions PUSH and CALL: register 7, the byte at `pushAddr`, `pc`, and on a
fault `run` and the record. -/
def Obligations.PushAndCallFrame : Prop :=
  ∀ i a s t, s.mem.wf → (i = .push a ∨ i = .call a) → exec i s = .next t →
    RegsSameBut 7 s t ∧ MemSameBut (pushAddr s) s t ∧ t.flags = s.flags ∧ t.out = s.out ∧
    ((t.run = s.run ∧ t.fault = s.fault) ∨ ∃ c n, t = faulted s c n)

/-- Frame of the clearing instructions POP and RET: register 7 and POP's destination, the byte at
`popAddr`, `pc`, and on a fault `run` and the record. -/
def Obligations.PopAndRetFrame : Prop :=
  ∀ i s t, s.mem.wf → (i = .ret ∨ ∃ a, i = .pop a) → exec i s = .next t →
    (∀ q, q ≠ 7 → i ≠ .pop (regByte q) → t.reg q = s.reg q) ∧ MemSameBut (popAddr s) s t ∧
    t.flags = s.flags ∧ t.out = s.out ∧
    ((t.run = s.run ∧ t.fault = s.fault) ∨ ∃ c n, t = faulted s c n)

/-! ### Data movement -/

/-- R100: LDI, whole: its bytes, its fault, its effect for every literal. -/
def Obligations.LdiLoadsTheLiteral : Prop :=
  ∀ (v : Byte) (s : State),
    (∀ a, encode (.ldi a v) = [0x82, a, v]) ∧
    (∀ a : Byte, 7 < a.toNat → exec (.ldi a v) s = .next (faulted s .registerIndexOutOfRange a.toNat)) ∧
    ∀ r : RegIdx, CompletesWith (.ldi (regByte r) v) s fun t => WritesReg s t r v 3

/-- PUSH (spec/41_data_movement.md): with room, the old value of the register is stored at the old `SP`
minus 1. That `SP` = 0 alone has no room, and that PUSH r7 stores the old pointer, are the spec's decisions
D7 and D11 (log entries 7, 9). -/
def Obligations.PushStoresTheRegister : Prop :=
  ∀ (r : RegIdx) (s : State), s.mem.wf → s.sp ≠ 0#8 → CompletesWith (.push (regByte r)) s fun t =>
    (t.reg 7).toNat = (s.reg 7).toNat - 1 ∧ RegsSameBut 7 s t ∧
    memRead t.mem (pushAddr s) = some (s.reg r) ∧ MemSameBut (pushAddr s) s t ∧
    t.pc = s.pc + 2 ∧ StatusSame s t

/-- POP (spec/41_data_movement.md): below the base, the register takes the byte at `SP`, the cell is
cleared, `SP` is one more, but for POP r7, whose popped value stays. The threshold compared with the
current `x[7]` and the order for register 7 are the spec's decisions D8 and D11 (log entries 8, 9). -/
def Obligations.PopLoadsTheRegister : Prop :=
  ∀ (r : RegIdx) (s : State), s.mem.wf → s.sp.toNat < 0xF4 → CompletesWith (.pop (regByte r)) s fun t =>
    memRead s.mem (popAddr s) = some (t.reg r) ∧ (r ≠ 7 → (t.reg 7).toNat = (s.reg 7).toNat + 1) ∧
    (∀ q, q ≠ 7 → q ≠ r → t.reg q = s.reg q) ∧
    memRead t.mem (popAddr s) = some 0#8 ∧ MemSameBut (popAddr s) s t ∧ t.pc = s.pc + 2 ∧ StatusSame s t

/-- The table of R104: register 7 named by a stack instruction, the spec's decision D11 (log entry 9). -/
def Obligations.StackInstructionsNamingRegisterSeven : Prop :=
  ∀ s : State, s.mem.wf →
    (1 ≤ s.sp.toNat → CompletesWith (.push 7) s fun t =>
      memRead t.mem (s.sp.toNat - 1) = some s.sp ∧ (t.reg 7).toNat = s.sp.toNat - 1) ∧
    (s.sp.toNat < 0xF4 → CompletesWith (.pop 7) s fun t =>
      some (t.reg 7) = memRead s.mem s.sp.toNat ∧ memRead t.mem s.sp.toNat = some 0#8) ∧
    (1 ≤ s.sp.toNat → CompletesWith (.call 7) s fun t =>
      t.pc.toNat = s.sp.toNat - 1 ∧ (t.reg 7).toNat = s.sp.toNat - 1)

/-- The source's property S3 (spec/95_test_vectors.md): PUSH then POP into any register but 7 round-trips
the value and restores `SP`; the cell is left cleared. -/
def Obligations.PushThenPopRoundTrips : Prop :=
  ∀ (a b : RegIdx) (s : State), s.mem.wf → b ≠ 7 → 1 ≤ s.sp.toNat → s.sp.toNat ≤ 0xF4 →
    ∃ t u, exec (.push (regByte a)) s = .next t ∧ exec (.pop (regByte b)) t = .next u ∧
      u.reg b = s.reg a ∧ RegsSameBut b s u ∧ MemSameBut (pushAddr s) s u ∧
      memRead u.mem (pushAddr s) = some 0#8 ∧ StatusSame s u

/-- R44: from reset exactly 244 pushes of one register complete, each one address lower; the next one
raises StackOverflow. The floor is the spec's decision D7 (log entry 7). -/
def Obligations.ResetStackHoldsExactly244Bytes : Prop :=
  ∀ (r : RegIdx) (n : Nat), n ≤ 244 → ∃ t, execTimes (.push (regByte r)) n State.reset = some t ∧
    t.run = .running ∧ t.sp.toNat = 244 - n ∧
    (n = 244 → exec (.push (regByte r)) t = .next (faulted t .stackOverflow 0))

/-! ### ALU -/

/-- R110, the whole table: every ALU instruction computes its function of the old registers into the first
operand, or for CMP into the flags; MOD where the divisor is not 0. -/
def Obligations.AluInstructionsComputeTheirFunctions : Prop :=
  ∀ (ra rb : RegIdx) (v : Byte) (s : State),
    let a := (s.reg ra).toNat
    let b := (s.reg rb).toNat
    let Gives := fun (i : Instr) (n : PcWord) (P : Byte → Prop) =>
      CompletesWith i s fun t => P (t.reg ra) ∧ WritesReg s t ra (t.reg ra) n
    Gives (.add (regByte ra) (regByte rb)) 3 (fun r => r.toNat = (a + b) % 256) ∧
    Gives (.addi (regByte ra) v) 3 (fun r => r.toNat = (a + v.toNat) % 256) ∧
    Gives (.mul (regByte ra) (regByte rb)) 3 (fun r => r.toNat = a * b % 256) ∧
    (b ≠ 0 → Gives (.mod (regByte ra) (regByte rb)) 3 fun r => r.toNat = a % b) ∧
    Gives (.and (regByte ra) (regByte rb)) 3
      (fun r => ∀ i, i < 8 → r.getLsbD i = ((s.reg ra).getLsbD i && (s.reg rb).getLsbD i)) ∧
    Gives (.or (regByte ra) (regByte rb)) 3
      (fun r => ∀ i, i < 8 → r.getLsbD i = ((s.reg ra).getLsbD i || (s.reg rb).getLsbD i)) ∧
    Gives (.xor (regByte ra) (regByte rb)) 3
      (fun r => ∀ i, i < 8 → r.getLsbD i = ((s.reg ra).getLsbD i != (s.reg rb).getLsbD i)) ∧
    Gives (.not (regByte ra)) 2 (fun r => r.toNat = 255 - a) ∧
    Gives (.shl (regByte ra) (regByte rb)) 3 (fun r => r.toNat = a * 2 ^ b % 256) ∧
    Gives (.shr (regByte ra) (regByte rb)) 3 (fun r => r.toNat = a / 2 ^ b) ∧
    CompletesWith (.cmp (regByte ra) (regByte rb)) s fun t =>
      (t.flags.l = true ↔ a < b) ∧ (t.flags.g = true ↔ b < a) ∧ (t.flags.e = true ↔ a = b) ∧
      (∀ q, t.reg q = s.reg q) ∧ t.pc = s.pc + 3 ∧ MemSame s t ∧ t.run = s.run ∧ t.fault = s.fault ∧
      t.out = s.out

/-- R122: a shift count of 8 to 255 gives 0, and `SHR r, r` always does. The spec's decision D12 (log entry
10). -/
def Obligations.LongShiftsGiveZero : Prop :=
  ∀ (ra rb : RegIdx) (s : State),
    (8 ≤ (s.reg rb).toNat →
      CompletesWith (.shl (regByte ra) (regByte rb)) s (fun t => t.reg ra = 0#8) ∧
      CompletesWith (.shr (regByte ra) (regByte rb)) s (fun t => t.reg ra = 0#8)) ∧
    CompletesWith (.shr (regByte ra) (regByte ra)) s fun t => t.reg ra = 0#8

/-! ### Control flow -/

/-- JMP (spec/43_control_flow.md): `pc` becomes the register, widened; nothing else changes. -/
def Obligations.JmpGoesToTheRegister : Prop :=
  ∀ (r : RegIdx) (s : State), CompletesWith (.jmp (regByte r)) s fun t =>
    t.pc.toNat = (s.reg r).toNat ∧ (∀ q, t.reg q = s.reg q) ∧ MemSame s t ∧ StatusSame s t

/-- JEQ and JNE (spec/43_control_flow.md): taken on `E` = 1, respectively `E` = 0, to the register's value;
else 2 on; nothing else changes. -/
def Obligations.JeqAndJneBranchOnEqual : Prop :=
  ∀ (r : RegIdx) (s : State),
    (CompletesWith (.jeq (regByte r)) s fun t =>
      (s.flags.e = true → t.pc.toNat = (s.reg r).toNat) ∧ (s.flags.e = false → t.pc = s.pc + 2) ∧
      (∀ q, t.reg q = s.reg q) ∧ MemSame s t ∧ StatusSame s t) ∧
    CompletesWith (.jne (regByte r)) s fun t =>
      (s.flags.e = false → t.pc.toNat = (s.reg r).toNat) ∧ (s.flags.e = true → t.pc = s.pc + 2) ∧
      (∀ q, t.reg q = s.reg q) ∧ MemSame s t ∧ StatusSame s t

/-- CALL (spec/43_control_flow.md): pushes the address after it, as one byte, and jumps; the target is read
after the push. The spec's decisions D7, D11, D22 (log entries 7, 9, 6). -/
def Obligations.CallPushesTheReturnAddress : Prop :=
  ∀ (r : RegIdx) (s : State), s.mem.wf → s.sp ≠ 0#8 → CompletesWith (.call (regByte r)) s fun t =>
    (t.reg 7).toNat = (s.reg 7).toNat - 1 ∧ RegsSameBut 7 s t ∧
    (∃ b, memRead t.mem (pushAddr s) = some b ∧ b.toNat = (s.pc.toNat + 2) % 256) ∧
    MemSameBut (pushAddr s) s t ∧ t.pc.toNat = (t.reg r).toNat ∧ StatusSame s t

/-- RET (spec/43_control_flow.md): pops the program counter and clears the cell. The threshold compared with
the current `x[7]` is the spec's decision D8 (log entry 8). -/
def Obligations.RetPopsTheProgramCounter : Prop :=
  ∀ s : State, s.mem.wf → s.sp.toNat < 0xF4 → CompletesWith .ret s fun t =>
    (∃ b, memRead s.mem (popAddr s) = some b ∧ t.pc.toNat = b.toNat) ∧
    (t.reg 7).toNat = (s.reg 7).toNat + 1 ∧ RegsSameBut 7 s t ∧
    memRead t.mem (popAddr s) = some 0#8 ∧ MemSameBut (popAddr s) s t ∧ StatusSame s t

/-- The source's property S4 (spec/95_test_vectors.md): after a CALL, any instructions that leave `SP` and
the cell of the return address as the CALL left them, then RET, come back to the instruction after the
CALL with `SP` restored. The one-byte return address is the spec's decision D22 (log entry 6). -/
def Obligations.CallThenRetComesBack : Prop :=
  ∀ (r : RegIdx) (s : State), s.mem.wf → 1 ≤ s.sp.toNat → s.sp.toNat ≤ 0xF4 →
    ∃ t, exec (.call (regByte r)) s = .next t ∧
      ∀ u, u.sp = t.sp → memRead u.mem u.sp.toNat = memRead t.mem t.sp.toNat →
        CompletesWith .ret u fun w => w.pc.toNat = (s.pc.toNat + 2) % 256 ∧ w.sp = s.sp

/-! ### System -/

/-- HLT (spec/44_system.md): Halted, `pc` past the HLT byte (the spec's decision D13, log entry 13),
nothing else changed; no step follows. -/
def Obligations.HltStopsTheCore : Prop :=
  ∀ s : State, CompletesWith .hlt s fun t =>
    t.run = .halted ∧ t.pc = s.pc + 1 ∧ (∀ q, t.reg q = s.reg q) ∧ MemSame s t ∧ t.flags = s.flags ∧
    t.fault = s.fault ∧ t.out = s.out ∧ ∀ u, step t ≠ .next u

/-- R141: PRN, whole: its bytes, its fault, its effect. -/
def Obligations.PrnEmitsTheRegister : Prop :=
  ∀ s : State,
    (∀ a, encode (.prn a) = [0x47, a]) ∧
    (∀ a : Byte, 7 < a.toNat → exec (.prn a) s = .next (faulted s .registerIndexOutOfRange a.toNat)) ∧
    ∀ r : RegIdx, CompletesWith (.prn (regByte r)) s fun t =>
      t.out = s.out ++ [s.reg r] ∧ t.pc = s.pc + 2 ∧ (∀ q, t.reg q = s.reg q) ∧ MemSame s t ∧
      t.flags = s.flags ∧ t.run = s.run ∧ t.fault = s.fault

/-- R142: an output line is the decimal digits, no leading zero, then LF. The terminator is the spec's
decision D15 (log entry 11). -/
def Obligations.OutputLineIsTheDecimalNumber : Prop :=
  ∀ v : Byte, ∃ ds : List Char, outputLine v = ds ++ [Char.ofNat 0x0A] ∧ digitsValue ds = v.toNat ∧
    (∀ c ∈ ds, 48 ≤ c.toNat ∧ c.toNat ≤ 57) ∧ ds ≠ [] ∧ (ds.head? = some '0' → ds = ['0'])

/-- The source's property S1 (spec/95_test_vectors.md), as two steps of the core: LDI r,v then PRN r adds
exactly the line of v to the console text (line form: decision D15, log entry 11). -/
def Obligations.LdiThenPrnPrintsTheValue : Prop :=
  ∀ (r : RegIdx) (v : Byte) (s : State), s.run = .running →
    (∀ k : Fin 5, memRead s.mem (s.pc.toNat + k.val) = some (#v[0x82, regByte r, v, 0x47, regByte r][k])) →
    ∃ t u, step s = .next t ∧ step t = .next u ∧ u.run = .running ∧
      consoleText u = consoleText s ++ outputLine v

/-! ### Faults -/

/-- R153: MOD with a zero divisor register raises DivisionByZero whatever the first operand is, and
changes nothing else (the info value is another statement's). -/
def Obligations.ModByZeroFaults : Prop :=
  ∀ (a b : RegIdx) (s : State), s.reg b = 0#8 →
    ∃ n, exec (.mod (regByte a) (regByte b)) s = .next (faulted s .divisionByZero n)

/-- R154: POP and RET with `x[7]` at or above 0xF4 raise StackUnderflow and change nothing else (the info
value is another statement's). -/
def Obligations.PopAtTheBaseFaults : Prop :=
  ∀ s : State, 0xF4 ≤ (s.reg 7).toNat →
    (∀ r : RegIdx, ∃ n, exec (.pop (regByte r)) s = .next (faulted s .stackUnderflow n)) ∧
    ∃ n, exec .ret s = .next (faulted s .stackUnderflow n)

/-- R155: PUSH and CALL with `x[7]` = 0x00 raise StackOverflow and change nothing else. The floor is the
spec's decision D7 (log entry 7). -/
def Obligations.PushAtTheFloorFaults : Prop :=
  ∀ (s : State) (r : RegIdx), s.reg 7 = 0#8 →
    exec (.push (regByte r)) s = .next (faulted s .stackOverflow 0) ∧
    exec (.call (regByte r)) s = .next (faulted s .stackOverflow 0)

/-- R156, R83: the first register operand above 7, `opA` before `opB`, raises RegisterIndexOutOfRange in
every instruction that has one, before anything else; a well-formed instruction never does. The spec's
decisions D6 and D16 (log entry 2). -/
def Obligations.BadRegisterOperandFaults : Prop :=
  (∀ i s b, i.regOperands.find? (fun c => !regOperandOk c) = some b →
    exec i s = .next (faulted s .registerIndexOutOfRange b.toNat)) ∧
  (∀ i s t r, s.fault = none → i.wellFormed = true → exec i s = .next t → t.fault = some r →
    r.cause ≠ .registerIndexOutOfRange)

/-- R84, R158: a step that faults writes the record and the run state and nothing else, whichever phase
raised it, and no further step is taken; each instruction raises only the causes R84 names for it. -/
def Obligations.FaultsChangeNothingElse : Prop :=
  (∀ s t, step s = .next t → t.run = .failed →
    (∃ c n, t = faulted s c n) ∧ ∀ u, step t ≠ .next u) ∧
  (∀ i s t, s.run = .running → exec i s = .next t → t.run = .failed →
    ∃ c n, t = faulted s c n ∧
      (c = .registerIndexOutOfRange ∨ (c = .divisionByZero ∧ ∃ a b, i = .mod a b) ∨
       (c = .stackOverflow ∧ ∃ a, i = .push a ∨ i = .call a) ∨
       (c = .stackUnderflow ∧ (i = .ret ∨ ∃ a, i = .pop a))))

/-- R160, with R150's info column: a running core raises exactly the first fault in phase order, and with
none it commits. The order and the info values are the spec's decisions D9 and D10 (log entry 10). -/
def Obligations.StepRaisesTheFirstFaultInPhaseOrder : Prop :=
  ∀ s : State, s.run = .running →
    (∀ c n, firstFault s = some (c, n) → step s = .next (faulted s c n)) ∧
    (firstFault s = none → ∃ i t, fetchInstr s = .ok i ∧ exec i s = .next t ∧ step s = .next t ∧
      t.run ≠ .failed ∧ t.fault = s.fault)

/-- R81: opcode fetch and decode: OutOfBounds at a `pc` of 256 or more; IllegalInstruction on a byte that is
no opcode value, wherever it lies; else the instruction is of the row with that opcode. -/
def Obligations.OpcodeFetchAndDecode : Prop :=
  ∀ s : State, s.run = .running →
    (256 ≤ s.pc.toNat → step s = .next (faulted s .outOfBounds s.pc.toNat)) ∧
    (∀ op, memRead s.mem s.pc.toNat = some op → (∀ o : Op, opcodeMap o ≠ op) →
      step s = .next (faulted s .illegalInstruction op.toNat)) ∧
    (∀ o : Op, memRead s.mem s.pc.toNat = some (opcodeMap o) → ∀ i, fetchInstr s = .ok i → i.op = o)

/-- R82: an operand byte that would lie at 256 raises OutOfBounds(256); an instruction that fits up to
address 255 is fetched. The spec's decision D2 (log entry 6). -/
def Obligations.OperandFetchAtTheEndOfMemory : Prop :=
  ∀ (s : State) (o : Op), s.run = .running → memRead s.mem s.pc.toNat = some (opcodeMap o) →
    (256 < s.pc.toNat + o.format.length → step s = .next (faulted s .outOfBounds 256)) ∧
    (s.pc.toNat + o.format.length ≤ 256 → ∃ i, fetchInstr s = .ok i ∧ i.op = o ∧ step s = exec i s)

/-! ### The step and the run state -/

/-- R80: when memory holds an instruction's bytes at `pc`, the step of a running core is `exec` of it:
nothing is added around it. -/
def Obligations.StepRunsTheDecodedInstruction : Prop :=
  ∀ (s : State) (i : Instr), s.run = .running →
    (∀ k (h : k < (encode i).length), memRead s.mem (s.pc.toNat + k) = some (encode i)[k]) →
    fetchInstr s = .ok i ∧ step s = exec i s

/-- The transition table of R24. -/
def Obligations.RunStateTransitions : Prop :=
  (∀ (image : Image) s, (applyReset image s).run = .running) ∧
  (∀ s, s.run = .running → ∃ t, step s = .next t ∧
    ((∃ c n, t = faulted s c n) ∨ ∃ i, fetchInstr s = .ok i ∧ exec i s = .next t ∧
      ((i = .hlt ∧ t.run = .halted) ∨ (i ≠ .hlt ∧ t.run = .running)))) ∧
  (∀ s, s.run = .halted ∨ s.run = .failed → ∀ t, step s ≠ .next t)

/-- R87: a run goes on until HLT or a fault and no other thing ends it; from a stopped core nothing is
reached but itself. -/
def Obligations.RunEndsOnlyByHltOrFault : Prop :=
  (∀ s, s.run = .running ↔ ∃ t, step s = .next t) ∧
  (∀ s t, step s = .next t → t.run ≠ .running →
    (fetchInstr s = .ok .hlt ∧ t.run = .halted) ∨ ∃ c n, t = faulted s c n) ∧
  (∀ s t, s.run ≠ .running → Reaches s t → t = s)

/-! ### Encoding -/

/-- Decode and encode agree for every instruction, with every operand byte, under every legal opcode map
(R65, decision D1: the map is a parameter). -/
def Obligations.DecodeEncodeUnderAnyLegalMap : Prop :=
  ∀ (m : OpcodeMap), m.Legal → ∀ (i : Instr) (rest : List Byte),
    decodeWith m (encodeWith m i ++ rest) = .ok (i, rest)

/-- The other direction: what the decoder reads is exactly the encoding of its answer, so each instruction
has one encoding and no bit is ignored (R69). -/
def Obligations.DecodedBytesAreTheEncoding : Prop :=
  ∀ (m : OpcodeMap) (bytes rest : List Byte) (i : Instr),
    decodeWith m bytes = .ok (i, rest) → bytes = encodeWith m i ++ rest

/-- R60: the four formats, and that the opcode byte alone decides the length. -/
def Obligations.FormatsAndLengths : Prop :=
  (∀ (m : OpcodeMap) (a b : Byte),
    encodeWith m .hlt = [m .hlt] ∧ encodeWith m .ret = [m .ret] ∧
    encodeWith m (.prn a) = [m .prn, a] ∧ encodeWith m (.push a) = [m .push, a] ∧
    encodeWith m (.pop a) = [m .pop, a] ∧ encodeWith m (.call a) = [m .call, a] ∧
    encodeWith m (.jmp a) = [m .jmp, a] ∧ encodeWith m (.jeq a) = [m .jeq, a] ∧
    encodeWith m (.jne a) = [m .jne, a] ∧ encodeWith m (.not a) = [m .not, a] ∧
    encodeWith m (.add a b) = [m .add, a, b] ∧ encodeWith m (.mul a b) = [m .mul, a, b] ∧
    encodeWith m (.mod a b) = [m .mod, a, b] ∧ encodeWith m (.and a b) = [m .and, a, b] ∧
    encodeWith m (.or a b) = [m .or, a, b] ∧ encodeWith m (.xor a b) = [m .xor, a, b] ∧
    encodeWith m (.shl a b) = [m .shl, a, b] ∧ encodeWith m (.shr a b) = [m .shr, a, b] ∧
    encodeWith m (.cmp a b) = [m .cmp, a, b] ∧ encodeWith m (.ldi a b) = [m .ldi, a, b] ∧
    encodeWith m (.addi a b) = [m .addi, a, b]) ∧
  (∀ (m : OpcodeMap) (b : Byte) (r₁ r₂ t₁ t₂ : List Byte) (i₁ i₂ : Instr),
    decodeWith m (b :: r₁) = .ok (i₁, t₁) → decodeWith m (b :: r₂) = .ok (i₂, t₂) →
    (encodeWith m i₁).length = (encodeWith m i₂).length)

/-- R61: the field positions: an instruction as one number has its opcode in the highest byte, then `opA`,
then `opB`; the opcode table's word of every instruction decodes to it. -/
def Obligations.TableWordFieldPositions : Prop :=
  ∀ i : Instr, decodeTableWord (8 * i.op.format.length) (tableWord i) = some i

/-- R68: exactly the 21 values of the map are opcodes, 235 bytes are illegal, 0x00 among them. The values
are the spec's decision D1 (log entry 1). -/
def Obligations.ExactlyTheTableOpcodesAreLegal : Prop :=
  (∀ (b : Byte) (rest : List Byte), decode (b :: rest) = .error (.illegalOpcode b) ↔
    b ∉ ([0x82, 0x47, 0x01, 0xA0, 0xA2, 0x45, 0x46, 0x50, 0x11, 0xA7, 0x54, 0x55, 0x56, 0xA8, 0xAA, 0xAB,
      0x69, 0xAC, 0xAD, 0xA4, 0xAE] : List Byte)) ∧
  ((List.range 256).filter fun n => lookupOp opcodeMap (BitVec.ofNat 8 n) == none).length = 235 ∧
  opcodeMap.Legal

/-- A sanity statement: words written out from the table of R66 and the examples of the instruction rules
decode to the instruction they stand for (opcodes but LDI, PRN, HLT: decision D1, log entry 1). -/
def Obligations.WordsFromTheTableDecode : Prop :=
  decode [0b10000010, 0b00000000, 0b00000111] = .ok (.ldi 0 7, []) ∧
  decode [0b01000111, 0b00000000] = .ok (.prn 0, []) ∧
  decode [0b00000001] = .ok (.hlt, []) ∧
  decode [0b10100100, 0b00000001, 0b00000010] = .ok (.mod 1 2, []) ∧
  decode [0b01010000, 0b00000001] = .ok (.call 1, []) ∧
  decode [0b10101110, 0b00000000, 0b11111111] = .ok (.addi 0 255, []) ∧
  decode [0b01101001, 0b00000000, 0b00000001] = .ok (.not 0, [1]) ∧
  decodeTableWord 24 0xA00001 = some (.add 0 1)
end

