-- ==== Sys2Proof/Laws/Alu.lean ====
section
/-! SUPPORT. The ALU's byte functions as the numbers of spec/42_alu.md R110. -/

namespace Sys2Proof.Machine

theorem aluAdd_toNat (a b : Byte) : (aluAdd a b).toNat = (a.toNat + b.toNat) % 256 := BitVec.toNat_add a b

theorem aluMul_toNat (a b : Byte) : (aluMul a b).toNat = a.toNat * b.toNat % 256 := BitVec.toNat_mul a b

theorem aluRem_toNat (a b : Byte) : (aluRem a b).toNat = a.toNat % b.toNat := BitVec.toNat_umod

theorem aluAnd_bit (a b : Byte) (i : Nat) : (aluAnd a b).getLsbD i = (a.getLsbD i && b.getLsbD i) :=
  BitVec.getLsbD_and

theorem aluOr_bit (a b : Byte) (i : Nat) : (aluOr a b).getLsbD i = (a.getLsbD i || b.getLsbD i) :=
  BitVec.getLsbD_or

theorem aluXor_bit (a b : Byte) (i : Nat) : (aluXor a b).getLsbD i = (a.getLsbD i ^^ b.getLsbD i) :=
  BitVec.getLsbD_xor

theorem aluNot_toNat (a : Byte) : (aluNot a).toNat = 255 - a.toNat := by
  have := a.isLt
  simp only [aluNot, BitVec.toNat_not]

theorem aluShl_toNat (a b : Byte) : (aluShl a b).toNat = a.toNat * 2 ^ b.toNat % 256 := by
  simp [aluShl, BitVec.toNat_shiftLeft, Nat.shiftLeft_eq]

theorem aluShr_toNat (a b : Byte) : (aluShr a b).toNat = a.toNat / 2 ^ b.toNat := by
  simp [aluShr, BitVec.toNat_ushiftRight, Nat.shiftRight_eq_div_pow]

/-- The flags of a compare as relations of numbers (R18). -/
theorem compareBytes_l (a b : Byte) : (compareBytes a b).l = decide (a.toNat < b.toNat) := rfl

theorem compareBytes_g (a b : Byte) : (compareBytes a b).g = decide (b.toNat < a.toNat) := rfl

theorem compareBytes_e (a b : Byte) : (compareBytes a b).e = decide (a = b) := rfl

end Sys2Proof.Machine
end

