-- ==== Sys2Proof/Laws/Decode.lean ====
section
/-! SUPPORT. Lemmas of the decoder's parts: looking an opcode up, taking operand bytes. -/

namespace Sys2Proof

theorem Op.mem_all (o : Op) : o ∈ Op.all := by cases o <;> decide

/-- A byte found in the map is that operation's. -/
theorem lookupOp_some {m : OpcodeMap} {b : Byte} {o : Op} (h : lookupOp m b = some o) : m o = b := by
  simpa using List.find?_some h

/-- A byte not found is no operation's. -/
theorem lookupOp_none {m : OpcodeMap} {b : Byte} : lookupOp m b = none ↔ ∀ o, m o ≠ b := by
  simp only [lookupOp, List.find?_eq_none]
  constructor
  · intro h o
    simpa using h o (Op.mem_all o)
  · intro h o _
    simpa using h o

/-- Where the values are distinct, each operation is found under its own. -/
theorem lookupOp_self {m : OpcodeMap} (hm : Function.Injective m) (o : Op) : lookupOp m (m o) = some o := by
  cases h : lookupOp m (m o) with
  | none => exact absurd rfl (lookupOp_none.1 h o)
  | some o' => rw [hm (lookupOp_some h)]

theorem decodeWith_cons (m : OpcodeMap) (b : Byte) (rest : List Byte) :
    decodeWith m (b :: rest) =
      match lookupOp m b with
      | none => .error (.illegalOpcode b)
      | some o => decodeOperands o rest := rfl

/-- What taking one operand byte can answer. -/
theorem takeOne_ok {c : Byte → Instr} {bytes : List Byte} {p : Instr × List Byte}
    (h : takeOne c bytes = .ok p) : ∃ a, bytes = a :: p.2 ∧ p.1 = c a := by
  cases bytes with
  | nil => cases h
  | cons a rest => cases h; exact ⟨a, rfl, rfl⟩

/-- What taking two operand bytes can answer. -/
theorem takeTwo_ok {c : Byte → Byte → Instr} {bytes : List Byte} {p : Instr × List Byte}
    (h : takeTwo c bytes = .ok p) : ∃ a b, bytes = a :: b :: p.2 ∧ p.1 = c a b := by
  match bytes, h with
  | [], h => cases h
  | [_], h => cases h
  | a :: b :: rest, h => cases h; exact ⟨a, b, rfl, rfl⟩

/-- What the operand phase answers: an instruction of the operation looked up, its operand bytes taken
from the front. -/
theorem decodeOperands_ok {o : Op} {bytes : List Byte} {p : Instr × List Byte}
    (h : decodeOperands o bytes = .ok p) : p.1.op = o ∧ bytes = p.1.operandBytes ++ p.2 := by
  cases o <;> simp only [decodeOperands] at h
  case hlt => cases h; exact ⟨rfl, rfl⟩
  case ret => cases h; exact ⟨rfl, rfl⟩
  all_goals first
    | (obtain ⟨a, h1, h2⟩ := takeOne_ok h
       rw [h2]
       exact ⟨rfl, by simpa [Instr.operandBytes] using h1⟩)
    | (obtain ⟨a, b, h1, h2⟩ := takeTwo_ok h
       rw [h2]
       exact ⟨rfl, by simpa [Instr.operandBytes] using h1⟩)

end Sys2Proof
end

