-- ==== Sys2Proof/Laws/Memory.lean ====
section
/-! SUPPORT. What the memory operations do: read after write, and the canonical form kept. -/

namespace Sys2Proof.Machine

/-- An address below every listed one reads as the fill. -/
theorem Memory.read_of_lt : ∀ {m : Memory} {a : Nat}, (∀ c ∈ m, a < c.1) → m.read a = Config.memFill
  | [], _, _ => rfl
  | (k, v) :: rest, a, h => by
    have hk : a < k := h (k, v) (by simp)
    rw [Memory.read, if_neg (by omega)]
    exact Memory.read_of_lt fun c hc => h c (by simp [hc])

theorem Memory.wf_cons {c : Host.Cell} {m : Memory} :
    Memory.wf (c :: m) ↔
      (∀ d ∈ m, c.1 < d.1) ∧ c.1 < Config.memSize ∧ c.2 ≠ Config.memFill ∧ Memory.wf m := by
  simp only [Memory.wf, List.pairwise_cons, List.forall_mem_cons]
  tauto

theorem Memory.wf_nil : Memory.wf [] := by simp [Memory.wf]

/-- Every cell a write leaves is the written one or one that was there. -/
theorem Memory.mem_write : ∀ {m : Memory} {a : Nat} {v : Byte} {c : Host.Cell},
    c ∈ m.write a v → c = (a, v) ∨ c ∈ m
  | [], a, v, c, h => by
    rw [Memory.write] at h
    split at h <;> simp_all
  | (k, w) :: rest, a, v, c, h => by
    rw [Memory.write] at h
    split at h
    · split at h
      · exact .inr h
      · simpa using h
    · split at h
      · split at h
        · exact .inr (by simp [h])
        · rcases List.mem_cons.1 h with h | h
          · exact .inl h
          · exact .inr (by simp [h])
      · rcases List.mem_cons.1 h with h | h
        · exact .inr (by simp [h])
        · rcases Memory.mem_write h with h | h
          · exact .inl h
          · exact .inr (by simp [h])

/-- A write keeps the canonical form. -/
theorem Memory.wf_write : ∀ {m : Memory} {a : Nat} (v : Byte), m.wf → a < Config.memSize → (m.write a v).wf
  | [], a, v, _, ha => by
    rw [Memory.write]
    split
    · exact Memory.wf_nil
    · exact Memory.wf_cons.2 ⟨by simp, ha, ‹_›, Memory.wf_nil⟩
  | (k, w) :: rest, a, v, h, ha => by
    obtain ⟨hlt, hk, hw, hrest⟩ := Memory.wf_cons.1 h
    rw [Memory.write]
    split
    · split
      · exact h
      · refine Memory.wf_cons.2 ⟨fun d hd => ?_, ha, ‹_›, h⟩
        rcases List.mem_cons.1 hd with rfl | hd
        · assumption
        · exact Nat.lt_trans ‹a < k› (hlt d hd)
    · split
      · subst a
        split
        · exact hrest
        · exact Memory.wf_cons.2 ⟨hlt, hk, ‹_›, hrest⟩
      · refine Memory.wf_cons.2 ⟨fun d hd => ?_, hk, hw, Memory.wf_write v hrest ha⟩
        rcases Memory.mem_write hd with rfl | hd
        · show k < a
          omega
        · exact hlt d hd

/-- Reading after a write, in canonical memory: the written byte at its address, every other as before. -/
theorem Memory.read_write : ∀ {m : Memory} {a : Nat} (v : Byte) (b : Nat), m.wf →
    (m.write a v).read b = if b = a then v else m.read b
  | [], a, v, b, _ => by
    simp only [Memory.write]
    split
    · simp only [Memory.read]
      split <;> simp_all
    · simp only [Memory.read]
  | (k, w) :: rest, a, v, b, h => by
    obtain ⟨hlt, hk, hw, hrest⟩ := Memory.wf_cons.1 h
    simp only [Memory.write]
    split
    · rename_i hak
      split
      · rename_i hv
        split
        · subst b
          rw [hv, Memory.read_of_lt]
          intro d hd
          rcases List.mem_cons.1 hd with rfl | hd
          · exact hak
          · exact Nat.lt_trans hak (hlt d hd)
        · rfl
      · simp only [Memory.read]
    · split
      · subst a
        split
        · rename_i hv
          simp only [Memory.read]
          split
          · subst b
            rw [hv, Memory.read_of_lt hlt]
          · rfl
        · simp only [Memory.read]
          split <;> rfl
      · simp only [Memory.read]
        rw [Memory.read_write v b hrest]
        split <;> split <;> first | rfl | omega

/-- An access at a byte address is never out of bounds (R40). -/
@[simp] theorem memRead_byte (m : Memory) (a : Byte) : memRead m a.toNat = some (m.read a.toNat) := by
  simp [memRead, Config.memSize, a.isLt]

/-- A write at a byte address is never out of bounds (R41). -/
@[simp] theorem memWrite_byte (m : Memory) (a : Byte) (v : Nat) :
    memWrite m a.toNat v = some (m.write a.toNat (BitVec.ofNat 8 v)) := by
  simp [memWrite, Config.memSize, a.isLt]

/-- A read answers exactly inside memory (R40). -/
theorem memRead_eq_some {m : Memory} {a : Nat} {b : Byte} :
    memRead m a = some b ↔ a < 256 ∧ m.read a = b := by
  unfold memRead
  by_cases h : a < 256
  · simp [Config.memSize, h]
  · simp [Config.memSize, h]

/-- The byte at a written address reads back. -/
theorem memRead_write_same {m : Memory} (h : m.wf) (a v : Byte) :
    memRead (m.write a.toNat v) a.toNat = some v := by
  simp [Memory.read_write v _ h]

/-- A write leaves every other address alone. -/
theorem memRead_write_ne {m : Memory} (h : m.wf) {a b : Nat} (v : Byte) (hab : b ≠ a) :
    memRead (m.write a v) b = memRead m b := by
  simp [memRead, Memory.read_write v _ h, hab]

theorem memWrite_wf {m m' : Memory} {a v : Nat} (h : m.wf) (hw : memWrite m a v = some m') : m'.wf := by
  unfold memWrite at hw
  split at hw
  · obtain rfl := Option.some.inj hw
    exact Memory.wf_write _ h ‹_›
  · cases hw

theorem Memory.ofBytes_ge : ∀ {bytes : List Byte} {a : Nat} {c : Host.Cell}, c ∈ Memory.ofBytes a bytes →
    a ≤ c.1 ∧ c.1 < a + bytes.length ∧ c.2 ≠ Config.memFill
  | [], _, _, h => by simp [Memory.ofBytes] at h
  | b :: rest, a, c, h => by
    simp only [Memory.ofBytes] at h
    simp only [List.length_cons]
    split at h
    · have := Memory.ofBytes_ge h
      exact ⟨by omega, by omega, this.2.2⟩
    · rcases List.mem_cons.1 h with rfl | h
      · exact ⟨Nat.le_refl _, by simp, ‹_›⟩
      · have := Memory.ofBytes_ge h
        exact ⟨by omega, by omega, this.2.2⟩

/-- Loading bytes gives canonical memory. -/
theorem Memory.wf_ofBytes : ∀ {bytes : List Byte} {a : Nat}, a + bytes.length ≤ Config.memSize →
    (Memory.ofBytes a bytes).wf
  | [], _, _ => Memory.wf_nil
  | b :: rest, a, h => by
    simp only [List.length_cons] at h
    have ih : (Memory.ofBytes (a + 1) rest).wf := Memory.wf_ofBytes (by omega)
    rw [Memory.ofBytes]
    split
    · exact ih
    · refine Memory.wf_cons.2 ⟨fun d hd => (Memory.ofBytes_ge hd).1, ?_, ‹_›, ih⟩
      show a < _
      omega

/-- Loaded memory reads as the bytes, and as the fill elsewhere. -/
theorem Memory.read_ofBytes : ∀ {bytes : List Byte} {a b : Nat},
    (Memory.ofBytes a bytes).read b = if a ≤ b then bytes.getD (b - a) Config.memFill else Config.memFill
  | [], _, _ => by simp [Memory.ofBytes, Memory.read]
  | w :: rest, a, b => by
    have ih : (Memory.ofBytes (a + 1) rest).read b =
        if a + 1 ≤ b then rest.getD (b - (a + 1)) Config.memFill else Config.memFill := Memory.read_ofBytes
    rcases Nat.lt_trichotomy b a with hb | rfl | hb
    · rw [if_neg (by omega)]
      apply Memory.read_of_lt
      intro c hc
      exact Nat.lt_of_lt_of_le hb (Memory.ofBytes_ge hc).1
    · simp only [Memory.ofBytes]
      split
      · rw [ih, if_neg (by omega)]
        simp_all
      · simp [Memory.read]
    · obtain ⟨n, rfl⟩ : ∃ n, b = a + 1 + n := ⟨b - (a + 1), by omega⟩
      have e : a + 1 + n - a = n + 1 := by omega
      rw [if_pos (by omega), e]
      simp only [Memory.ofBytes]
      have ih' : (Memory.ofBytes (a + 1) rest).read (a + 1 + n) = rest.getD n Config.memFill := by
        rw [ih, if_pos (by omega)]
        congr 1
        omega
      split
      · simpa using ih'
      · rw [Memory.read, if_neg (by omega)]
        simpa using ih'

/-- Loading nothing but fill lists nothing. -/
theorem Memory.ofBytes_fill : ∀ (n a : Nat), Memory.ofBytes a (List.replicate n Config.memFill) = []
  | 0, _ => rfl
  | n + 1, a => by
    rw [List.replicate_succ, Memory.ofBytes, if_pos rfl]
    exact Memory.ofBytes_fill n (a + 1)

/-- Placing bytes keeps the canonical form. -/
theorem Memory.wf_place : ∀ {bytes : List Byte} {m : Memory} {a : Nat}, m.wf → (Memory.place m a bytes).wf
  | [], _, _, h => h
  | b :: rest, m, a, h => by
    rw [Memory.place]
    apply Memory.wf_place
    cases hw : memWrite m a b.toNat with
    | none => exact h
    | some m' => exact memWrite_wf h hw

end Sys2Proof.Machine
end

