-- ==== Sys2Proof/Laws/State.lean ====
section
/-! SUPPORT. One lemma per field per update of the state, so that no proof unfolds a record update. -/

/-- Widening a byte to the program counter keeps its number (R7). -/
@[simp] theorem Sys2Proof.zext9_toNat (b : Sys2Proof.Byte) : (Sys2Proof.zext9 b).toNat = b.toNat := by
  have := b.isLt
  simp only [Sys2Proof.zext9, BitVec.toNat_setWidth]
  omega

namespace Sys2Proof.Machine

variable (s : State)

@[simp] theorem State.setReg_pc (r : RegIdx) (v : Byte) : (s.setReg r v).pc = s.pc := rfl
@[simp] theorem State.setReg_flags (r : RegIdx) (v : Byte) : (s.setReg r v).flags = s.flags := rfl
@[simp] theorem State.setReg_mem (r : RegIdx) (v : Byte) : (s.setReg r v).mem = s.mem := rfl
@[simp] theorem State.setReg_run (r : RegIdx) (v : Byte) : (s.setReg r v).run = s.run := rfl
@[simp] theorem State.setReg_fault (r : RegIdx) (v : Byte) : (s.setReg r v).fault = s.fault := rfl
@[simp] theorem State.setReg_out (r : RegIdx) (v : Byte) : (s.setReg r v).out = s.out := rfl

@[simp] theorem State.setSp_pc (v : Byte) : (s.setSp v).pc = s.pc := rfl
@[simp] theorem State.setSp_flags (v : Byte) : (s.setSp v).flags = s.flags := rfl
@[simp] theorem State.setSp_mem (v : Byte) : (s.setSp v).mem = s.mem := rfl
@[simp] theorem State.setSp_run (v : Byte) : (s.setSp v).run = s.run := rfl
@[simp] theorem State.setSp_fault (v : Byte) : (s.setSp v).fault = s.fault := rfl
@[simp] theorem State.setSp_out (v : Byte) : (s.setSp v).out = s.out := rfl

@[simp] theorem State.setPc_pc (p : PcWord) : (s.setPc p).pc = p := rfl
@[simp] theorem State.setPc_flags (p : PcWord) : (s.setPc p).flags = s.flags := rfl
@[simp] theorem State.setPc_mem (p : PcWord) : (s.setPc p).mem = s.mem := rfl
@[simp] theorem State.setPc_run (p : PcWord) : (s.setPc p).run = s.run := rfl
@[simp] theorem State.setPc_fault (p : PcWord) : (s.setPc p).fault = s.fault := rfl
@[simp] theorem State.setPc_out (p : PcWord) : (s.setPc p).out = s.out := rfl
@[simp] theorem State.setPc_reg (p : PcWord) (q : RegIdx) : (s.setPc p).reg q = s.reg q := rfl
@[simp] theorem State.setPc_sp (p : PcWord) : (s.setPc p).sp = s.sp := rfl

@[simp] theorem State.advance_pc (n : PcWord) : (s.advance n).pc = s.pc + n := rfl
@[simp] theorem State.advance_flags (n : PcWord) : (s.advance n).flags = s.flags := rfl
@[simp] theorem State.advance_mem (n : PcWord) : (s.advance n).mem = s.mem := rfl
@[simp] theorem State.advance_run (n : PcWord) : (s.advance n).run = s.run := rfl
@[simp] theorem State.advance_fault (n : PcWord) : (s.advance n).fault = s.fault := rfl
@[simp] theorem State.advance_out (n : PcWord) : (s.advance n).out = s.out := rfl
@[simp] theorem State.advance_reg (n : PcWord) (q : RegIdx) : (s.advance n).reg q = s.reg q := rfl
@[simp] theorem State.advance_sp (n : PcWord) : (s.advance n).sp = s.sp := rfl

@[simp] theorem State.withFlags_pc (f : Flags) : (s.withFlags f).pc = s.pc := rfl
@[simp] theorem State.withFlags_flags (f : Flags) : (s.withFlags f).flags = f := rfl
@[simp] theorem State.withFlags_mem (f : Flags) : (s.withFlags f).mem = s.mem := rfl
@[simp] theorem State.withFlags_run (f : Flags) : (s.withFlags f).run = s.run := rfl
@[simp] theorem State.withFlags_fault (f : Flags) : (s.withFlags f).fault = s.fault := rfl
@[simp] theorem State.withFlags_out (f : Flags) : (s.withFlags f).out = s.out := rfl
@[simp] theorem State.withFlags_reg (f : Flags) (q : RegIdx) : (s.withFlags f).reg q = s.reg q := rfl
@[simp] theorem State.withFlags_sp (f : Flags) : (s.withFlags f).sp = s.sp := rfl

@[simp] theorem State.setMem_pc (m : Memory) : (s.setMem m).pc = s.pc := rfl
@[simp] theorem State.setMem_flags (m : Memory) : (s.setMem m).flags = s.flags := rfl
@[simp] theorem State.setMem_mem (m : Memory) : (s.setMem m).mem = m := rfl
@[simp] theorem State.setMem_run (m : Memory) : (s.setMem m).run = s.run := rfl
@[simp] theorem State.setMem_fault (m : Memory) : (s.setMem m).fault = s.fault := rfl
@[simp] theorem State.setMem_out (m : Memory) : (s.setMem m).out = s.out := rfl
@[simp] theorem State.setMem_reg (m : Memory) (q : RegIdx) : (s.setMem m).reg q = s.reg q := rfl
@[simp] theorem State.setMem_sp (m : Memory) : (s.setMem m).sp = s.sp := rfl

@[simp] theorem State.emit_pc (v : Byte) : (s.emit v).pc = s.pc := rfl
@[simp] theorem State.emit_flags (v : Byte) : (s.emit v).flags = s.flags := rfl
@[simp] theorem State.emit_mem (v : Byte) : (s.emit v).mem = s.mem := rfl
@[simp] theorem State.emit_run (v : Byte) : (s.emit v).run = s.run := rfl
@[simp] theorem State.emit_fault (v : Byte) : (s.emit v).fault = s.fault := rfl
@[simp] theorem State.emit_out (v : Byte) : (s.emit v).out = s.out ++ [v] := rfl
@[simp] theorem State.emit_reg (v : Byte) (q : RegIdx) : (s.emit v).reg q = s.reg q := rfl
@[simp] theorem State.emit_sp (v : Byte) : (s.emit v).sp = s.sp := rfl

@[simp] theorem State.halt_pc : (s.halt).pc = s.pc := rfl
@[simp] theorem State.halt_flags : (s.halt).flags = s.flags := rfl
@[simp] theorem State.halt_mem : (s.halt).mem = s.mem := rfl
@[simp] theorem State.halt_run : (s.halt).run = .halted := rfl
@[simp] theorem State.halt_fault : (s.halt).fault = s.fault := rfl
@[simp] theorem State.halt_out : (s.halt).out = s.out := rfl
@[simp] theorem State.halt_reg (q : RegIdx) : (s.halt).reg q = s.reg q := rfl
@[simp] theorem State.halt_sp : (s.halt).sp = s.sp := rfl

@[simp] theorem State.failWith_pc (c : FaultCause) (n : Nat) : (s.failWith c n).pc = s.pc := rfl
@[simp] theorem State.failWith_flags (c : FaultCause) (n : Nat) : (s.failWith c n).flags = s.flags := rfl
@[simp] theorem State.failWith_mem (c : FaultCause) (n : Nat) : (s.failWith c n).mem = s.mem := rfl
@[simp] theorem State.failWith_run (c : FaultCause) (n : Nat) : (s.failWith c n).run = .failed := rfl
@[simp] theorem State.failWith_fault (c : FaultCause) (n : Nat) : (s.failWith c n).fault = some ⟨c, n, s.pc⟩ := rfl
@[simp] theorem State.failWith_out (c : FaultCause) (n : Nat) : (s.failWith c n).out = s.out := rfl
@[simp] theorem State.failWith_reg (c : FaultCause) (n : Nat) (q : RegIdx) : (s.failWith c n).reg q = s.reg q := rfl
@[simp] theorem State.failWith_sp (c : FaultCause) (n : Nat) : (s.failWith c n).sp = s.sp := rfl

/-- A register reads as last written; the other slots keep their values (R10). -/
@[simp] theorem State.setReg_reg (r : RegIdx) (v : Byte) (q : RegIdx) :
    (s.setReg r v).reg q = if q = r then v else s.reg q := by
  simp only [State.reg, State.setReg, Vector.get_eq_getElem, Vector.getElem_set, Fin.ext_iff, eq_comm]

@[simp] theorem State.setSp_reg (v : Byte) (q : RegIdx) :
    (s.setSp v).reg q = if q = Config.spIndex then v else s.reg q := State.setReg_reg s _ v q

@[simp] theorem State.setSp_sp (v : Byte) : (s.setSp v).sp = v := by simp [State.sp]

@[simp] theorem State.setReg_sp (r : RegIdx) (v : Byte) :
    (s.setReg r v).sp = if Config.spIndex = r then v else s.sp := State.setReg_reg s r v _

/-- `SP` is another name for `x[7]` (R12). -/
theorem State.sp_eq : s.sp = s.reg 7 := rfl

/-- Two states with the same registers, and the same everything else, are the same state. -/
theorem State.ext_reg {s t : State} (hr : ∀ q, s.reg q = t.reg q) (hp : s.pc = t.pc) (hf : s.flags = t.flags)
    (hm : s.mem = t.mem) (hn : s.run = t.run) (hx : s.fault = t.fault) (ho : s.out = t.out) : s = t := by
  obtain ⟨regs, pc, flags, mem, run, fault, out⟩ := s
  obtain ⟨regs', pc', flags', mem', run', fault', out'⟩ := t
  have : regs = regs' := Vector.ext fun i hi => hr ⟨i, hi⟩
  simp_all

end Sys2Proof.Machine
end

