-- ==== Sys2Proof/Laws/Ops.lean ====
section
/-! SUPPORT. For each shared operation, once, everything it can do: the equation of its good case, the
fault of its bad case, and its inversion ("if it answers next t, then one of these"). -/

namespace Sys2Proof.Machine

variable {s t : State} {k : State → Result}

/-- The index of a register's own byte is the register. -/
@[simp] theorem regIndex_regByte (r : RegIdx) : regIndex (regByte r) = some r := by
  revert r; decide

@[simp] theorem regByte_toNat (r : RegIdx) : (regByte r).toNat = r.val := by
  revert r; decide

theorem regIndex_eq_some {b : Byte} {r : RegIdx} : regIndex b = some r ↔ b = regByte r := by
  constructor
  · intro h
    unfold regIndex at h
    split at h
    · obtain rfl := Option.some.inj h
      exact BitVec.eq_of_toNat_eq (by simp)
    · cases h
  · rintro rfl
    exact regIndex_regByte r

theorem regIndex_eq_none {b : Byte} : regIndex b = none ↔ 8 ≤ b.toNat := by
  unfold regIndex
  split <;> simp <;> omega

/-- Validation of a register's own byte goes on with the register. -/
@[simp] theorem onReg_regByte (s : State) (r : RegIdx) (k : RegIdx → Result) :
    onReg s (regByte r) k = k r := by simp [onReg]

/-- Validation of any other byte raises RegisterIndexOutOfRange (R156). -/
theorem onReg_bad (s : State) {b : Byte} (h : 8 ≤ b.toNat) (k : RegIdx → Result) :
    onReg s b k = .next (s.failWith .registerIndexOutOfRange b.toNat) := by
  simp [onReg, regIndex_eq_none.2 h, raiseFault]

@[simp] theorem onRegs_regByte (s : State) (a b : RegIdx) (k : RegIdx → RegIdx → Result) :
    onRegs s (regByte a) (regByte b) k = k a b := by simp [onRegs]

/-- One register operand: either the byte names a register and the rest goes on, or the fault. -/
theorem onReg_cases {b : Byte} {k : RegIdx → Result} {o : Result} (h : onReg s b k = o) :
    (∃ r, b = regByte r ∧ k r = o) ∨
    (8 ≤ b.toNat ∧ o = .next (s.failWith .registerIndexOutOfRange b.toNat)) := by
  cases hb : regIndex b with
  | some r => exact .inl ⟨r, regIndex_eq_some.1 hb, by simpa [onReg, hb] using h⟩
  | none => exact .inr ⟨regIndex_eq_none.1 hb, by rw [← h, onReg_bad s (regIndex_eq_none.1 hb)]⟩

/-- Two register operands: the rest goes on, or the fault of `opA`, or else of `opB`. -/
theorem onRegs_cases {a b : Byte} {k : RegIdx → RegIdx → Result} {o : Result} (h : onRegs s a b k = o) :
    (∃ ra rb, a = regByte ra ∧ b = regByte rb ∧ k ra rb = o) ∨
    (8 ≤ a.toNat ∧ o = .next (s.failWith .registerIndexOutOfRange a.toNat)) ∨
    (a.toNat < 8 ∧ 8 ≤ b.toNat ∧ o = .next (s.failWith .registerIndexOutOfRange b.toNat)) := by
  unfold onRegs at h
  rcases onReg_cases h with ⟨ra, ha, hk⟩ | hbad
  · subst ha
    rcases onReg_cases hk with ⟨rb, hb, hk'⟩ | hbad
    · exact .inl ⟨ra, rb, rfl, hb, hk'⟩
    · exact .inr (.inr ⟨by simp, hbad⟩)
  · exact .inr (.inl hbad)

/-- The state a push leaves (R42). -/
def State.pushed (s : State) (v : Nat) : State :=
  (s.setSp (s.sp - 1#8)).setMem (s.mem.write (s.sp - 1#8).toNat (BitVec.ofNat 8 v))

/-- The state a pop leaves (R43). -/
def State.popped (s : State) : State := (s.setMem (s.mem.write s.sp.toNat 0#8)).setSp (s.sp + 1#8)

theorem sp_le_floor : s.sp ≤ Config.stackFloor ↔ s.sp = 0#8 := by
  rw [BitVec.le_def]
  constructor
  · intro h
    exact BitVec.eq_of_toNat_eq (Nat.le_zero.1 h)
  · intro h
    rw [h]
    exact Nat.zero_le _

/-- The decrement of a push with room does not wrap (R42). -/
theorem sp_sub_toNat (h : s.sp ≠ 0#8) : (s.sp - 1#8).toNat = s.sp.toNat - 1 := by
  have h0 : s.sp.toNat ≠ 0 := fun h' => h (BitVec.eq_of_toNat_eq h')
  have := s.sp.isLt
  rw [BitVec.toNat_sub, BitVec.toNat_ofNat]
  omega

/-- The increment of a pop does not wrap (R43). -/
theorem sp_add_toNat (h : s.sp.toNat < 0xF4) : (s.sp + 1#8).toNat = s.sp.toNat + 1 := by
  rw [BitVec.toNat_add, BitVec.toNat_ofNat]
  omega

theorem base_le_sp : Config.stackBase ≤ s.sp ↔ 0xF4 ≤ s.sp.toNat := by
  rw [BitVec.le_def]
  rfl

/-- A push with room completes. -/
theorem pushByte_ok (h : s.sp ≠ 0#8) (v : Nat) : pushByte s v k = k (s.pushed v) := by
  rw [pushByte, if_neg (by rwa [sp_le_floor]), memWrite_byte]
  rfl

/-- A push without room raises StackOverflow and writes nothing (R155). -/
theorem pushByte_overflow (h : s.sp = 0#8) (v : Nat) :
    pushByte s v k = .next (s.failWith .stackOverflow 0) := by
  rw [pushByte, if_pos (by rwa [sp_le_floor]), raiseFault, h]
  rfl

theorem pushByte_cases {v : Nat} {o : Result} (h : pushByte s v k = o) :
    (s.sp ≠ 0#8 ∧ k (s.pushed v) = o) ∨ (s.sp = 0#8 ∧ o = .next (s.failWith .stackOverflow 0)) := by
  by_cases hs : s.sp = 0#8
  · exact .inr ⟨hs, by rw [← h, pushByte_overflow hs]⟩
  · exact .inl ⟨hs, by rw [← h, pushByte_ok hs]⟩

/-- A pop of a non-empty stack completes with the byte at `SP`. -/
theorem popByte_ok {k : Byte → State → Result} (h : s.sp.toNat < 0xF4) :
    popByte s k = k (s.mem.read s.sp.toNat) s.popped := by
  rw [popByte, if_neg (by rw [base_le_sp]; omega)]
  simp [State.popped]

/-- A pop at or above the base raises StackUnderflow and writes nothing (R154). -/
theorem popByte_underflow {k : Byte → State → Result} (h : 0xF4 ≤ s.sp.toNat) :
    popByte s k = .next (s.failWith .stackUnderflow s.sp.toNat) := by
  rw [popByte, if_pos (by rwa [base_le_sp]), raiseFault]

theorem popByte_cases {k : Byte → State → Result} {o : Result} (h : popByte s k = o) :
    (s.sp.toNat < 0xF4 ∧ k (s.mem.read s.sp.toNat) s.popped = o) ∨
    (0xF4 ≤ s.sp.toNat ∧ o = .next (s.failWith .stackUnderflow s.sp.toNat)) := by
  by_cases hs : 0xF4 ≤ s.sp.toNat
  · exact .inr ⟨hs, by rw [← h, popByte_underflow hs]⟩
  · exact .inl ⟨by omega, by rw [← h, popByte_ok (by omega)]⟩

@[simp] theorem State.pushed_pc (v : Nat) : (s.pushed v).pc = s.pc := rfl
@[simp] theorem State.pushed_flags (v : Nat) : (s.pushed v).flags = s.flags := rfl
@[simp] theorem State.pushed_run (v : Nat) : (s.pushed v).run = s.run := rfl
@[simp] theorem State.pushed_fault (v : Nat) : (s.pushed v).fault = s.fault := rfl
@[simp] theorem State.pushed_out (v : Nat) : (s.pushed v).out = s.out := rfl
@[simp] theorem State.pushed_mem (v : Nat) :
    (s.pushed v).mem = s.mem.write (s.sp - 1#8).toNat (BitVec.ofNat 8 v) := rfl
@[simp] theorem State.pushed_reg (v : Nat) (q : RegIdx) :
    (s.pushed v).reg q = if q = 7 then s.sp - 1#8 else s.reg q := State.setSp_reg s _ q
@[simp] theorem State.pushed_sp (v : Nat) : (s.pushed v).sp = s.sp - 1#8 := by simp [State.sp_eq]

@[simp] theorem State.popped_pc : s.popped.pc = s.pc := rfl
@[simp] theorem State.popped_flags : s.popped.flags = s.flags := rfl
@[simp] theorem State.popped_run : s.popped.run = s.run := rfl
@[simp] theorem State.popped_fault : s.popped.fault = s.fault := rfl
@[simp] theorem State.popped_out : s.popped.out = s.out := rfl
@[simp] theorem State.popped_mem : s.popped.mem = s.mem.write s.sp.toNat 0#8 := rfl
@[simp] theorem State.popped_reg (q : RegIdx) :
    s.popped.reg q = if q = 7 then s.sp + 1#8 else s.reg q := State.setSp_reg _ _ q
@[simp] theorem State.popped_sp : s.popped.sp = s.sp + 1#8 := by simp [State.sp_eq]

/-- The register-to-register shape of the ALU (R110). -/
theorem aluRR_cases {f : Byte → Byte → Byte} {a b : Byte} {o : Result} (h : aluRR f a b s = o) :
    (∃ ra rb, a = regByte ra ∧ b = regByte rb ∧
      o = .next ((s.setReg ra (f (s.reg ra) (s.reg rb))).advance 3)) ∨
    (8 ≤ a.toNat ∧ o = .next (s.failWith .registerIndexOutOfRange a.toNat)) ∨
    (a.toNat < 8 ∧ 8 ≤ b.toNat ∧ o = .next (s.failWith .registerIndexOutOfRange b.toNat)) := by
  rcases onRegs_cases h with ⟨ra, rb, ha, hb, rfl⟩ | h | h
  · exact .inl ⟨ra, rb, ha, hb, rfl⟩
  · exact .inr (.inl h)
  · exact .inr (.inr h)

theorem aluRR_regByte (f : Byte → Byte → Byte) (a b : RegIdx) (s : State) :
    aluRR f (regByte a) (regByte b) s = .next ((s.setReg a (f (s.reg a) (s.reg b))).advance 3) := by
  simp [aluRR]

end Sys2Proof.Machine
end

