-- ==== Sys2Proof/Laws/Exec.lean ====
section
/-! SUPPORT. What executing an instruction can do, once for all instructions: it raises the first fault of
its validate and check phases, or it makes its commit. Later proofs cite `exec_eq` and split on the
constructor, and unfold no meaning. -/

namespace Sys2Proof.Machine

/-- The register of a validated operand byte. -/
def regOf (b : Byte) : RegIdx := (regIndex b).getD 0

@[simp] theorem regOf_regByte (r : RegIdx) : regOf (regByte r) = r := by simp [regOf]

@[simp] theorem regOperandOk_regByte (r : RegIdx) : regOperandOk (regByte r) = true := by
  revert r; decide

theorem regByte_regOf {b : Byte} (h : regOperandOk b = true) : b = regByte (regOf b) := by
  cases hb : regIndex b with
  | some r => rw [regIndex_eq_some.1 hb, regOf_regByte]
  | none =>
    have h8 := regIndex_eq_none.1 hb
    simp only [regOperandOk, decide_eq_true_eq] at h
    omega

theorem regOperandOk_eq_false {b : Byte} : regOperandOk b = false ↔ 8 ≤ b.toNat := by
  simp only [regOperandOk, decide_eq_false_iff_not]
  omega

/-- Validation of one operand, in closed form. -/
theorem onReg_eq (s : State) (b : Byte) (k : RegIdx → Result) :
    onReg s b k =
      if regOperandOk b then k (regOf b) else .next (s.failWith .registerIndexOutOfRange b.toNat) := by
  cases h : regOperandOk b with
  | true => rw [regByte_regOf h, onReg_regByte, regOf_regByte, if_pos rfl]
  | false => rw [onReg_bad s (regOperandOk_eq_false.1 h), if_neg (by simp)]

/-- The fault of the first bad register operand of a list, else another one (R83, R160). -/
def firstTrap (operands : List Byte) (p : Option Trap) : Option Trap :=
  match operands.find? fun b => !regOperandOk b with
  | some b => some (.registerIndexOutOfRange, b.toNat)
  | none => p

/-- The instruction's own fault condition (R84). -/
def checkOf (s : State) : Instr → Option Trap
  | .mod _ b => if s.reg (regOf b) = 0#8 then some (.divisionByZero, b.toNat) else none
  | .push _ | .call _ => if s.sp = 0#8 then some (.stackOverflow, 0) else none
  | .pop _ | .ret => if 0xF4 ≤ s.sp.toNat then some (.stackUnderflow, s.sp.toNat) else none
  | .ldi _ _ | .prn _ | .hlt | .add _ _ | .mul _ _ | .cmp _ _ | .jmp _ | .jeq _ | .jne _ | .and _ _
  | .or _ _ | .xor _ _ | .not _ | .shl _ _ | .shr _ _ | .addi _ _ => none

/-- Phases 4 and 5: the fault the instruction raises, if any. -/
def trapOf (s : State) (i : Instr) : Option Trap := firstTrap i.regOperands (checkOf s i)

/-- A two-register operation's commit. -/
def commitRR (s : State) (f : Byte → Byte → Byte) (a b : Byte) : State :=
  (s.setReg (regOf a) (f (s.reg (regOf a)) (s.reg (regOf b)))).advance 3

/-- Phase 6: the state the instruction's commit leaves. -/
def commitOf (s : State) : Instr → State
  | .ldi a v => (s.setReg (regOf a) v).advance 3
  | .prn a => (s.emit (s.reg (regOf a))).advance 2
  | .hlt => (s.advance 1).halt
  | .add a b => commitRR s aluAdd a b
  | .mul a b => commitRR s aluMul a b
  | .push a => (s.pushed (s.reg (regOf a)).toNat).advance 2
  | .pop a => (s.popped.setReg (regOf a) (s.mem.read s.sp.toNat)).advance 2
  | .call a => (s.pushed (s.pc.toNat + 2)).setPc (zext9 ((s.pushed (s.pc.toNat + 2)).reg (regOf a)))
  | .ret => s.popped.setPc (zext9 (s.mem.read s.sp.toNat))
  | .cmp a b => (setFlags s (s.reg (regOf a)) (s.reg (regOf b))).advance 3
  | .jmp a => s.setPc (zext9 (s.reg (regOf a)))
  | .jeq a => if s.flags.e then s.setPc (zext9 (s.reg (regOf a))) else s.advance 2
  | .jne a => if s.flags.e then s.advance 2 else s.setPc (zext9 (s.reg (regOf a)))
  | .and a b => commitRR s aluAnd a b
  | .or a b => commitRR s aluOr a b
  | .xor a b => commitRR s aluXor a b
  | .not a => (s.setReg (regOf a) (aluNot (s.reg (regOf a)))).advance 2
  | .shl a b => commitRR s aluShl a b
  | .shr a b => commitRR s aluShr a b
  | .mod a b => commitRR s aluRem a b
  | .addi a v => (s.setReg (regOf a) (aluAdd (s.reg (regOf a)) v)).advance 3

/-- The shape of `exec`: a trap taken from the state before, or the commit. -/
def settle (s t : State) : Option Trap → Result
  | some p => .next (s.failWith p.1 p.2)
  | none => .next t

theorem onReg_settle {s t : State} {b : Byte} {k : RegIdx → Result} {p : Option Trap}
    (h : k (regOf b) = settle s t p) :
    onReg s b k = settle s t (firstTrap [b] p) := by
  rw [onReg_eq]
  cases hb : regOperandOk b <;> simp [firstTrap, hb, h, settle]

theorem onRegs_settle {s t : State} {a b : Byte} {k : RegIdx → RegIdx → Result} {p : Option Trap}
    (h : k (regOf a) (regOf b) = settle s t p) :
    onRegs s a b k = settle s t (firstTrap [a, b] p) := by
  rw [onRegs, onReg_eq, onReg_eq]
  cases ha : regOperandOk a <;> cases hb : regOperandOk b <;> simp [firstTrap, ha, hb, h, settle]

theorem pushByte_settle (s : State) (v : Nat) (k : State → State) :
    (pushByte s v fun t => .next (k t)) =
      settle s (k (s.pushed v)) (if s.sp = 0#8 then some (.stackOverflow, 0) else none) := by
  by_cases h : s.sp = 0#8
  · rw [pushByte_overflow h, if_pos h]
    rfl
  · rw [pushByte_ok h, if_neg h]
    rfl

theorem popByte_settle (s : State) (k : Byte → State → State) :
    (popByte s fun v t => .next (k v t)) =
      settle s (k (s.mem.read s.sp.toNat) s.popped)
        (if 0xF4 ≤ s.sp.toNat then some (.stackUnderflow, s.sp.toNat) else none) := by
  by_cases h : 0xF4 ≤ s.sp.toNat
  · rw [popByte_underflow h, if_pos h]
    rfl
  · rw [popByte_ok (by omega), if_neg h]
    rfl

theorem mod_settle (s : State) (a b : Byte) :
    (if s.reg (regOf b) = 0#8 then raiseFault s .divisionByZero b.toNat
      else .next ((s.setReg (regOf a) (aluRem (s.reg (regOf a)) (s.reg (regOf b)))).advance 3)) =
    settle s (commitRR s aluRem a b)
      (if s.reg (regOf b) = 0#8 then some (.divisionByZero, b.toNat) else none) := by
  by_cases h : s.reg (regOf b) = 0#8
  · rw [if_pos h, if_pos h]
    rfl
  · rw [if_neg h, if_neg h]
    rfl

/-- Every instruction answers a next state: its first fault taken, or its commit. -/
theorem exec_eq (i : Instr) (s : State) : exec i s = settle s (commitOf s i) (trapOf s i) := by
  cases i with
  | hlt => rfl
  | ret => exact popByte_settle s fun v t => t.setPc (zext9 v)
  | ldi a v => exact onReg_settle (p := none) rfl
  | prn a => exact onReg_settle (p := none) rfl
  | push a => exact onReg_settle (pushByte_settle s _ fun t => t.advance 2)
  | pop a => exact onReg_settle (popByte_settle s fun v t => (t.setReg (regOf a) v).advance 2)
  | call a => exact onReg_settle (pushByte_settle s _ fun t => t.setPc (zext9 (t.reg (regOf a))))
  | jmp a => exact onReg_settle (p := none) rfl
  | jeq a => exact onReg_settle (p := none) rfl
  | jne a => exact onReg_settle (p := none) rfl
  | not a => exact onReg_settle (p := none) rfl
  | addi a v => exact onReg_settle (p := none) rfl
  | cmp a b => exact onRegs_settle (p := none) rfl
  | add a b => exact onRegs_settle (p := none) rfl
  | mul a b => exact onRegs_settle (p := none) rfl
  | and a b => exact onRegs_settle (p := none) rfl
  | or a b => exact onRegs_settle (p := none) rfl
  | xor a b => exact onRegs_settle (p := none) rfl
  | shl a b => exact onRegs_settle (p := none) rfl
  | shr a b => exact onRegs_settle (p := none) rfl
  | mod a b =>
    refine onRegs_settle (t := commitOf s (.mod a b)) (p := checkOf s (.mod a b)) ?_
    exact mod_settle s a b

/-- Inversion: what is known when an instruction has answered. -/
theorem exec_next_cases {i : Instr} {s t : State} (h : exec i s = .next t) :
    (∃ p, trapOf s i = some p ∧ t = s.failWith p.1 p.2) ∨ (trapOf s i = none ∧ t = commitOf s i) := by
  rw [exec_eq] at h
  cases ht : trapOf s i with
  | some p =>
    rw [ht] at h
    cases h
    exact .inl ⟨p, rfl, rfl⟩
  | none =>
    rw [ht] at h
    cases h
    exact .inr ⟨rfl, rfl⟩

/-- An instruction that raises nothing has legal register operands. -/
theorem regOperands_ok {s : State} {i : Instr} (h : trapOf s i = none) :
    ∀ b ∈ i.regOperands, regOperandOk b = true := by
  simp only [trapOf, firstTrap] at h
  split at h
  · cases h
  · rename_i hnone
    simpa using hnone

/-- An instruction that raises nothing passes its own check. -/
theorem checkOf_none {s : State} {i : Instr} (h : trapOf s i = none) : checkOf s i = none := by
  simp only [trapOf, firstTrap] at h
  split at h
  · cases h
  · exact h

/-- An instruction with legal register operands that passes its own check makes its commit. -/
theorem exec_commits {s : State} {i : Instr} (hb : ∀ b ∈ i.regOperands, regOperandOk b = true)
    (hc : checkOf s i = none) : exec i s = .next (commitOf s i) := by
  have hf : i.regOperands.find? (fun b => !regOperandOk b) = none := by
    rw [List.find?_eq_none]
    intro b h
    simp [hb b h]
  rw [exec_eq, trapOf, firstTrap, hf]
  simp only [hc, settle]

/-- The first bad register operand is the fault, before anything else (R83, R160). -/
theorem exec_bad_operand {s : State} {i : Instr} {b : Byte}
    (h : i.regOperands.find? (fun c => !regOperandOk c) = some b) :
    exec i s = .next (s.failWith .registerIndexOutOfRange b.toNat) := by
  rw [exec_eq, trapOf, firstTrap, h]
  rfl

/-- A commit leaves the fault record alone. -/
@[simp] theorem commitOf_fault (s : State) (i : Instr) : (commitOf s i).fault = s.fault := by
  cases i <;> first | rfl | (simp only [commitOf]; split <;> rfl)

/-- A commit leaves the run state alone, but for HLT (R24). -/
theorem commitOf_run (s : State) (i : Instr) :
    (commitOf s i).run = if i = .hlt then .halted else s.run := by
  cases i <;> first | rfl | (simp only [commitOf]; split <;> rfl)

end Sys2Proof.Machine
end

