-- ==== Sys2Proof/Laws/HostPort.lean ====
section
/-! SUPPORT. What the load port and reset leave. -/

namespace Sys2Proof.Machine

/-- The image of a run of bytes that fits: the bytes, then the fill. -/
theorem imageOfBytes_fits {bytes : List Byte} (h : bytes.length ≤ 256) :
    ∃ image : Image, imageOfBytes bytes = some image ∧
      image.toList = bytes ++ List.replicate (256 - bytes.length) Config.memFill :=
  ⟨_, by rw [imageOfBytes, dif_pos h], rfl⟩

/-- A run of bytes that does not fit is refused (R184). -/
theorem imageOfBytes_long {bytes : List Byte} (h : 256 < bytes.length) : imageOfBytes bytes = none := by
  rw [imageOfBytes, dif_neg (by omega)]

/-- After reset, memory is the image (R34). -/
theorem applyReset_mem (image : Image) (s : State) :
    (applyReset image s).mem = Memory.ofBytes 0 image.toList := rfl

/-- After reset, everything but memory is as the bare reset leaves it (R180). -/
theorem applyReset_eq (image : Image) (s : State) :
    applyReset image s = State.reset.setMem (Memory.ofBytes 0 image.toList) := rfl

theorem applyReset_mem_wf (image : Image) (s : State) : (applyReset image s).mem.wf :=
  Memory.wf_ofBytes (by simp [Config.loadBase, Config.memSize])

/-- A digit's character is its ASCII code. -/
theorem digitChar_toNat {d : Nat} (h : d < 10) : (digitChar d).toNat = 48 + d := by
  have all : ∀ k : Fin 10, (digitChar k.val).toNat = 48 + k.val := by decide
  exact all ⟨d, h⟩

end Sys2Proof.Machine
end

