-- ==== Sys2Proof/Laws/PerInstr.lean ====
section
/-! SUPPORT. Facts proved per instruction, one lemma per constructor of Instr. -/

/-- The operand phase of the decoder reads back an instruction's own operand bytes and leaves the rest. -/
def Sys2Proof.Laws.OperandRoundTrip.Statement (i : Sys2Proof.Instr) : Prop :=
  ∀ rest, Sys2Proof.decodeOperands i.op (i.operandBytes ++ rest) = .ok (i, rest)

/-- An instruction's encoding has the length of its format (R60). -/
def Sys2Proof.Laws.LengthByFormat.Statement (i : Sys2Proof.Instr) : Prop :=
  (Sys2Proof.encode i).length = i.op.format.length

theorem Sys2Proof.Laws.OperandRoundTrip.ldi (a b : Sys2Proof.Byte) :
    Sys2Proof.Laws.OperandRoundTrip.Statement (.ldi a b) := fun _ => rfl

theorem Sys2Proof.Laws.OperandRoundTrip.prn (a : Sys2Proof.Byte) :
    Sys2Proof.Laws.OperandRoundTrip.Statement (.prn a) := fun _ => rfl

theorem Sys2Proof.Laws.OperandRoundTrip.hlt :
    Sys2Proof.Laws.OperandRoundTrip.Statement .hlt := fun _ => rfl

theorem Sys2Proof.Laws.OperandRoundTrip.add (a b : Sys2Proof.Byte) :
    Sys2Proof.Laws.OperandRoundTrip.Statement (.add a b) := fun _ => rfl

theorem Sys2Proof.Laws.OperandRoundTrip.mul (a b : Sys2Proof.Byte) :
    Sys2Proof.Laws.OperandRoundTrip.Statement (.mul a b) := fun _ => rfl

theorem Sys2Proof.Laws.OperandRoundTrip.push (a : Sys2Proof.Byte) :
    Sys2Proof.Laws.OperandRoundTrip.Statement (.push a) := fun _ => rfl

theorem Sys2Proof.Laws.OperandRoundTrip.pop (a : Sys2Proof.Byte) :
    Sys2Proof.Laws.OperandRoundTrip.Statement (.pop a) := fun _ => rfl

theorem Sys2Proof.Laws.OperandRoundTrip.call (a : Sys2Proof.Byte) :
    Sys2Proof.Laws.OperandRoundTrip.Statement (.call a) := fun _ => rfl

theorem Sys2Proof.Laws.OperandRoundTrip.ret :
    Sys2Proof.Laws.OperandRoundTrip.Statement .ret := fun _ => rfl

theorem Sys2Proof.Laws.OperandRoundTrip.cmp (a b : Sys2Proof.Byte) :
    Sys2Proof.Laws.OperandRoundTrip.Statement (.cmp a b) := fun _ => rfl

theorem Sys2Proof.Laws.OperandRoundTrip.jmp (a : Sys2Proof.Byte) :
    Sys2Proof.Laws.OperandRoundTrip.Statement (.jmp a) := fun _ => rfl

theorem Sys2Proof.Laws.OperandRoundTrip.jeq (a : Sys2Proof.Byte) :
    Sys2Proof.Laws.OperandRoundTrip.Statement (.jeq a) := fun _ => rfl

theorem Sys2Proof.Laws.OperandRoundTrip.jne (a : Sys2Proof.Byte) :
    Sys2Proof.Laws.OperandRoundTrip.Statement (.jne a) := fun _ => rfl

theorem Sys2Proof.Laws.OperandRoundTrip.and (a b : Sys2Proof.Byte) :
    Sys2Proof.Laws.OperandRoundTrip.Statement (.and a b) := fun _ => rfl

theorem Sys2Proof.Laws.OperandRoundTrip.or (a b : Sys2Proof.Byte) :
    Sys2Proof.Laws.OperandRoundTrip.Statement (.or a b) := fun _ => rfl

theorem Sys2Proof.Laws.OperandRoundTrip.xor (a b : Sys2Proof.Byte) :
    Sys2Proof.Laws.OperandRoundTrip.Statement (.xor a b) := fun _ => rfl

theorem Sys2Proof.Laws.OperandRoundTrip.not (a : Sys2Proof.Byte) :
    Sys2Proof.Laws.OperandRoundTrip.Statement (.not a) := fun _ => rfl

theorem Sys2Proof.Laws.OperandRoundTrip.shl (a b : Sys2Proof.Byte) :
    Sys2Proof.Laws.OperandRoundTrip.Statement (.shl a b) := fun _ => rfl

theorem Sys2Proof.Laws.OperandRoundTrip.shr (a b : Sys2Proof.Byte) :
    Sys2Proof.Laws.OperandRoundTrip.Statement (.shr a b) := fun _ => rfl

theorem Sys2Proof.Laws.OperandRoundTrip.mod (a b : Sys2Proof.Byte) :
    Sys2Proof.Laws.OperandRoundTrip.Statement (.mod a b) := fun _ => rfl

theorem Sys2Proof.Laws.OperandRoundTrip.addi (a b : Sys2Proof.Byte) :
    Sys2Proof.Laws.OperandRoundTrip.Statement (.addi a b) := fun _ => rfl

theorem Sys2Proof.Laws.LengthByFormat.ldi (a b : Sys2Proof.Byte) :
    Sys2Proof.Laws.LengthByFormat.Statement (.ldi a b) := rfl

theorem Sys2Proof.Laws.LengthByFormat.prn (a : Sys2Proof.Byte) :
    Sys2Proof.Laws.LengthByFormat.Statement (.prn a) := rfl

theorem Sys2Proof.Laws.LengthByFormat.hlt :
    Sys2Proof.Laws.LengthByFormat.Statement .hlt := rfl

theorem Sys2Proof.Laws.LengthByFormat.add (a b : Sys2Proof.Byte) :
    Sys2Proof.Laws.LengthByFormat.Statement (.add a b) := rfl

theorem Sys2Proof.Laws.LengthByFormat.mul (a b : Sys2Proof.Byte) :
    Sys2Proof.Laws.LengthByFormat.Statement (.mul a b) := rfl

theorem Sys2Proof.Laws.LengthByFormat.push (a : Sys2Proof.Byte) :
    Sys2Proof.Laws.LengthByFormat.Statement (.push a) := rfl

theorem Sys2Proof.Laws.LengthByFormat.pop (a : Sys2Proof.Byte) :
    Sys2Proof.Laws.LengthByFormat.Statement (.pop a) := rfl

theorem Sys2Proof.Laws.LengthByFormat.call (a : Sys2Proof.Byte) :
    Sys2Proof.Laws.LengthByFormat.Statement (.call a) := rfl

theorem Sys2Proof.Laws.LengthByFormat.ret :
    Sys2Proof.Laws.LengthByFormat.Statement .ret := rfl

theorem Sys2Proof.Laws.LengthByFormat.cmp (a b : Sys2Proof.Byte) :
    Sys2Proof.Laws.LengthByFormat.Statement (.cmp a b) := rfl

theorem Sys2Proof.Laws.LengthByFormat.jmp (a : Sys2Proof.Byte) :
    Sys2Proof.Laws.LengthByFormat.Statement (.jmp a) := rfl

theorem Sys2Proof.Laws.LengthByFormat.jeq (a : Sys2Proof.Byte) :
    Sys2Proof.Laws.LengthByFormat.Statement (.jeq a) := rfl

theorem Sys2Proof.Laws.LengthByFormat.jne (a : Sys2Proof.Byte) :
    Sys2Proof.Laws.LengthByFormat.Statement (.jne a) := rfl

theorem Sys2Proof.Laws.LengthByFormat.and (a b : Sys2Proof.Byte) :
    Sys2Proof.Laws.LengthByFormat.Statement (.and a b) := rfl

theorem Sys2Proof.Laws.LengthByFormat.or (a b : Sys2Proof.Byte) :
    Sys2Proof.Laws.LengthByFormat.Statement (.or a b) := rfl

theorem Sys2Proof.Laws.LengthByFormat.xor (a b : Sys2Proof.Byte) :
    Sys2Proof.Laws.LengthByFormat.Statement (.xor a b) := rfl

theorem Sys2Proof.Laws.LengthByFormat.not (a : Sys2Proof.Byte) :
    Sys2Proof.Laws.LengthByFormat.Statement (.not a) := rfl

theorem Sys2Proof.Laws.LengthByFormat.shl (a b : Sys2Proof.Byte) :
    Sys2Proof.Laws.LengthByFormat.Statement (.shl a b) := rfl

theorem Sys2Proof.Laws.LengthByFormat.shr (a b : Sys2Proof.Byte) :
    Sys2Proof.Laws.LengthByFormat.Statement (.shr a b) := rfl

theorem Sys2Proof.Laws.LengthByFormat.mod (a b : Sys2Proof.Byte) :
    Sys2Proof.Laws.LengthByFormat.Statement (.mod a b) := rfl

theorem Sys2Proof.Laws.LengthByFormat.addi (a b : Sys2Proof.Byte) :
    Sys2Proof.Laws.LengthByFormat.Statement (.addi a b) := rfl
end

