-- ==== Sys2Proof/Laws/Step.lean ====
section
/-! SUPPORT. What the fetch and the step can do. -/

namespace Sys2Proof.Machine

/-- Only bytes inside memory are offered to the decoder. -/
theorem fetchBytes_eq (m : Memory) : ∀ (n a : Nat),
    fetchBytes m a n = (List.range (min n (256 - a))).map fun j => m.read (a + j)
  | 0, a => by simp [fetchBytes]
  | n + 1, a => by
    rw [fetchBytes, memRead]
    by_cases h : a < 256
    · have e : min (n + 1) (256 - a) = min n (256 - (a + 1)) + 1 := by omega
      simp [Config.memSize, h, fetchBytes_eq m n (a + 1), e, List.range_succ_eq_map, Function.comp_def,
        Nat.add_assoc, Nat.add_comm 1]
    · have e : min (n + 1) (256 - a) = 0 := by omega
      simp [Config.memSize, h, e]

/-- The fetch window, by how far it is from the end of memory. -/
theorem fetchBytes_cases (m : Memory) (a : Nat) :
    (256 ≤ a ∧ fetchBytes m a 3 = []) ∨
    (a = 255 ∧ fetchBytes m a 3 = [m.read a]) ∨
    (a = 254 ∧ fetchBytes m a 3 = [m.read a, m.read (a + 1)]) ∨
    (a < 254 ∧ fetchBytes m a 3 = [m.read a, m.read (a + 1), m.read (a + 2)]) := by
  rw [fetchBytes_eq]
  have hcases : 256 ≤ a ∨ a = 255 ∨ a = 254 ∨ a < 254 := by omega
  rcases hcases with h | h | h | h
  · exact .inl ⟨h, by rw [show min 3 (256 - a) = 0 by omega]; rfl⟩
  · exact .inr (.inl ⟨h, by rw [show min 3 (256 - a) = 1 by omega]; rfl⟩)
  · exact .inr (.inr (.inl ⟨h, by rw [show min 3 (256 - a) = 2 by omega]; rfl⟩))
  · exact .inr (.inr (.inr ⟨h, by rw [show min 3 (256 - a) = 3 by omega]; rfl⟩))

/-- A running core fetches, and executes or raises the fault met. -/
theorem step_running {s : State} (h : s.run = .running) :
    step s = match fetchInstr s with
      | .error t => raiseFault s t.1 t.2
      | .ok i => exec i s := by
  simp only [step, h] <;> rfl

/-- The core stops only in its two terminal states, never by a refusal of the fetch. -/
theorem step_halted {s : State} (h : s.run = .halted) : step s = .fault .coreHalted := by simp only [step, h]

theorem step_failed {s : State} (h : s.run = .failed) : step s = .fault .coreFailed := by simp only [step, h]

/-- Every step that has a next state starts Running; it is a fault of the fetch or one instruction. -/
theorem step_next_cases {s t : State} (h : step s = .next t) :
    s.run = .running ∧
    ((∃ p, fetchInstr s = .error p ∧ t = s.failWith p.1 p.2) ∨
     (∃ i, fetchInstr s = .ok i ∧ exec i s = .next t)) := by
  cases hr : s.run with
  | halted => rw [step_halted hr] at h; cases h
  | failed => rw [step_failed hr] at h; cases h
  | running =>
    rw [step_running hr] at h
    refine ⟨rfl, ?_⟩
    split at h
    · rename_i p hp
      cases h
      exact .inl ⟨p, hp, rfl⟩
    · rename_i i hi
      exact .inr ⟨i, hi, h⟩

end Sys2Proof.Machine
end

