-- ==== Sys2Proof/Tests/Slice0.lean ====
section
/-! SUPPORT. The model's own tests. Expected results come from spec/: the worked encodings and vectors of
spec/95_test_vectors.md (cited by their ids) and the table of R66. The last part shows, for each obligation
with hypotheses, a state and operands that meet them. -/

namespace Sys2Proof.Tests

open Sys2Proof.Machine Sys2Proof.Claims

/-- A check of the next state of a result; false where there is none. -/
def after (o : Result) (p : State → Bool) : Bool :=
  match o with
  | .next t => p t
  | .fault _ => false
  | .refused _ => false

/-- The reset state with bytes loaded from address 0. -/
def loaded (bytes : List Byte) : State := State.reset.setMem (Memory.ofBytes 0 bytes)

/-- The reset state with bytes loaded at `pc`. -/
def loadedAt (p : PcWord) (bytes : List Byte) : State :=
  (State.reset.setMem (Memory.ofBytes p.toNat bytes)).setPc p

/-- The reset state with registers 0 and 1 as given. -/
def withAB (a b : Byte) : State := (State.reset.setReg 0 a).setReg 1 b

/-- The result of an instruction in register 0, from `withAB`. -/
def gives (i : Instr) (a b v : Byte) : Bool :=
  after (exec i (withAB a b)) fun t => t.reg 0 == v && t.reg 1 == b && t.run == .running

/-- The reset state with the stack pointer at `p` and the byte `v` stored there. -/
def withStack (p v : Byte) : State := (State.reset.setSp p).setMem (Memory.write [] p.toNat v)

/-- Failed, with this record, and otherwise as before. -/
def failsAs (o : Result) (s : State) (c : FaultCause) (n : Nat) : Bool := after o fun t => t == faulted s c n

/-! ### Well-formed terms: one ill-formed term for each register operand, refused (R62) -/

theorem test_wf_ldi : (Instr.ldi 8 0).wellFormed = false := by decide
theorem test_wf_ldi_literal : (Instr.ldi 7 9).wellFormed = true := by decide
theorem test_wf_prn : (Instr.prn 8).wellFormed = false := by decide
theorem test_wf_add_a : (Instr.add 8 0).wellFormed = false := by decide
theorem test_wf_add_b : (Instr.add 0 255).wellFormed = false := by decide
theorem test_wf_mul_a : (Instr.mul 9 7).wellFormed = false := by decide
theorem test_wf_mul_b : (Instr.mul 7 9).wellFormed = false := by decide
theorem test_wf_push : (Instr.push 8).wellFormed = false := by decide
theorem test_wf_pop : (Instr.pop 16).wellFormed = false := by decide
theorem test_wf_call : (Instr.call 128).wellFormed = false := by decide
theorem test_wf_cmp_a : (Instr.cmp 8 0).wellFormed = false := by decide
theorem test_wf_cmp_b : (Instr.cmp 0 8).wellFormed = false := by decide
theorem test_wf_jmp : (Instr.jmp 8).wellFormed = false := by decide
theorem test_wf_jeq : (Instr.jeq 9).wellFormed = false := by decide
theorem test_wf_jne : (Instr.jne 255).wellFormed = false := by decide
theorem test_wf_and_a : (Instr.and 8 0).wellFormed = false := by decide
theorem test_wf_and_b : (Instr.and 0 8).wellFormed = false := by decide
theorem test_wf_or_a : (Instr.or 8 0).wellFormed = false := by decide
theorem test_wf_or_b : (Instr.or 0 8).wellFormed = false := by decide
theorem test_wf_xor_a : (Instr.xor 8 0).wellFormed = false := by decide
theorem test_wf_xor_b : (Instr.xor 0 8).wellFormed = false := by decide
theorem test_wf_not : (Instr.not 8).wellFormed = false := by decide
theorem test_wf_shl_a : (Instr.shl 8 0).wellFormed = false := by decide
theorem test_wf_shl_b : (Instr.shl 0 8).wellFormed = false := by decide
theorem test_wf_shr_a : (Instr.shr 8 0).wellFormed = false := by decide
theorem test_wf_shr_b : (Instr.shr 0 8).wellFormed = false := by decide
theorem test_wf_mod_a : (Instr.mod 8 0).wellFormed = false := by decide
theorem test_wf_mod_b : (Instr.mod 0 8).wellFormed = false := by decide
theorem test_wf_addi : (Instr.addi 8 0).wellFormed = false := by decide
theorem test_wf_all_legal : (Instr.shr 7 7).wellFormed = true ∧ Instr.ret.wellFormed = true := by decide

/-! ### Decoding: every row of R66, its opcode and operands written out bit by bit -/

theorem test_decode_ldi : decodeTableWord 24 0b10000010_00000000_00000111 = some (.ldi 0 7) := rfl
theorem test_decode_prn : decodeTableWord 16 0b01000111_00000000 = some (.prn 0) := rfl
theorem test_decode_hlt : decodeTableWord 8 0b00000001 = some .hlt := rfl
theorem test_decode_add : decodeTableWord 24 0b10100000_00000001_00000010 = some (.add 1 2) := rfl
theorem test_decode_mul : decodeTableWord 24 0b10100010_00000011_00000100 = some (.mul 3 4) := rfl
theorem test_decode_push : decodeTableWord 16 0b01000101_00000101 = some (.push 5) := rfl
theorem test_decode_pop : decodeTableWord 16 0b01000110_00000110 = some (.pop 6) := rfl
theorem test_decode_call : decodeTableWord 16 0b01010000_00000001 = some (.call 1) := rfl
theorem test_decode_ret : decodeTableWord 8 0b00010001 = some .ret := rfl
theorem test_decode_cmp : decodeTableWord 24 0b10100111_00000001_00000010 = some (.cmp 1 2) := rfl
theorem test_decode_jmp : decodeTableWord 16 0b01010100_00000011 = some (.jmp 3) := rfl
theorem test_decode_jeq : decodeTableWord 16 0b01010101_00000010 = some (.jeq 2) := rfl
theorem test_decode_jne : decodeTableWord 16 0b01010110_00000011 = some (.jne 3) := rfl
theorem test_decode_and : decodeTableWord 24 0b10101000_00000001_00000010 = some (.and 1 2) := rfl
theorem test_decode_or : decodeTableWord 24 0b10101010_00000001_00000010 = some (.or 1 2) := rfl
theorem test_decode_xor : decodeTableWord 24 0b10101011_00000001_00000010 = some (.xor 1 2) := rfl
theorem test_decode_not : decodeTableWord 16 0b01101001_00000111 = some (.not 7) := rfl
theorem test_decode_shl : decodeTableWord 24 0b10101100_00000001_00000010 = some (.shl 1 2) := rfl
theorem test_decode_shr : decodeTableWord 24 0b10101101_00000001_00000010 = some (.shr 1 2) := rfl
theorem test_decode_mod : decodeTableWord 24 0b10100100_00000001_00000010 = some (.mod 1 2) := rfl
theorem test_decode_addi : decodeTableWord 24 0b10101110_00000000_11111111 = some (.addi 0 255) := rfl
/-- An index above 7 decodes: the check comes later (R62, R83). -/
theorem test_decode_bad_index : decodeTableWord 24 0xA0090A = some (.add 9 10) := rfl
/-- V106, V107, V108: illegal bytes. -/
theorem test_decode_illegal : [0x00, 0xFF, 0x83].all (fun b => (decodeTableWord 8 b).isNone) = true := by
  decide

/-! ### The step fetches and runs what is placed (V1, V109 to V113) -/

theorem test_step_places_ldi :
    after (step (State.reset.withFetchWord 24 0x820007)) (fun t => t.reg 0 == 7 && t.pc == 3) = true := by
  decide
theorem test_step_places_hlt :
    after (step (State.reset.withFetchWord 8 0x01)) (fun t => t.run == .halted && t.pc == 1) = true := by
  decide
theorem test_step_places_again :
    after (step (((State.reset.setPc 0xFE).halt).withFetchWord 16 0x5402)) (fun t => t.pc == 0) = true := by
  decide
theorem test_step_v2 :
    after (step (loadedAt 0x10 [0x82, 0x03, 0xFF])) (fun t => t.reg 3 == 0xFF && t.pc == 0x13) = true := by
  decide
theorem test_step_v109 :
    failsAs (step (State.reset.setPc 0x100)) (State.reset.setPc 0x100) .outOfBounds 256 = true := by decide
theorem test_step_v110 :
    failsAs (step (loadedAt 0xFF [0x47])) (loadedAt 0xFF [0x47]) .outOfBounds 256 = true := by decide
theorem test_step_v111 :
    failsAs (step (loadedAt 0xFE [0xA0, 9])) (loadedAt 0xFE [0xA0, 9]) .outOfBounds 256 = true := by decide
theorem test_step_v112 :
    after (step (loadedAt 0xFD [0x82, 0, 1])) (fun t => t.reg 0 == 1 && t.pc == 0x100) = true := by decide
theorem test_step_v113 :
    failsAs (step (loadedAt 0xFF [])) (loadedAt 0xFF []) .illegalInstruction 0 = true := by decide
theorem test_step_v106 :
    failsAs (step (State.reset.setPc 3)) (State.reset.setPc 3) .illegalInstruction 0 = true := by decide

/-! ### One step of each instruction -/

theorem test_ldi_v3 : after (exec (.ldi 7 0x20) State.reset) (fun t => t.reg 7 == 0x20 && t.pc == 3) = true := by
  decide
theorem test_ldi_v4 :
    failsAs (exec (.ldi 8 1) State.reset) State.reset .registerIndexOutOfRange 8 = true := by decide
theorem test_push_v9 :
    after (exec (.push 7) State.reset) (fun t => t.reg 7 == 0xF3 && t.mem.read 0xF3 == 0xF4 && t.pc == 2) = true := by
  decide
theorem test_push_v8 :
    after (exec (.push 0) ((State.reset.setReg 0 0xAB).setSp 1)) (fun t => t.reg 7 == 0 && t.mem.read 0 == 0xAB)
      = true := by decide
theorem test_pop_v10 :
    after (exec (.pop 2) (withStack 0xF3 6)) (fun t => t.reg 2 == 6 && t.reg 7 == 0xF4 && t.mem == []) = true := by
  decide
theorem test_pop_v13 :
    after (exec (.pop 7) (withStack 0xF3 0x33)) (fun t => t.reg 7 == 0x33 && t.mem.read 0xF3 == 0) = true := by
  decide
theorem test_add_v20 : gives (.add 0 1) 0xC8 0x64 0x2C = true := by decide
theorem test_add_v52 :
    failsAs (exec (.add 9 10) State.reset) State.reset .registerIndexOutOfRange 9 = true := by decide
theorem test_mul_v25 : gives (.mul 0 1) 0x08 0x09 0x48 = true := by decide
theorem test_mul_v26 : gives (.mul 0 1) 0xFF 0xFF 0x01 = true := by decide
theorem test_mod_v31 : gives (.mod 0 1) 0xFF 0x10 0x0F = true := by decide
theorem test_mod_v34 : failsAs (exec (.mod 0 1) (withAB 5 0)) (withAB 5 0) .divisionByZero 1 = true := by decide
theorem test_and_v37 : gives (.and 0 1) 0xCC 0xAA 0x88 = true := by decide
theorem test_or_v38 : gives (.or 0 1) 0xCC 0xAA 0xEE = true := by decide
theorem test_xor_v39 : gives (.xor 0 1) 0xCC 0xAA 0x66 = true := by decide
theorem test_not_v55 : after (exec (.not 0) (withAB 0x0F 0)) (fun t => t.reg 0 == 0xF0 && t.pc == 2) = true := by
  decide
theorem test_shl_v41 : gives (.shl 0 1) 0x81 0x01 0x02 = true := by decide
theorem test_shl_v44 : gives (.shl 0 1) 0xFF 0xFF 0x00 = true := by decide
theorem test_shr_v50 : gives (.shr 0 1) 0x80 0x07 0x01 = true := by decide
theorem test_shr_v49 : gives (.shr 0 1) 0xFF 0x08 0x00 = true := by decide
theorem test_addi_v58 : after (exec (.addi 0 255) (withAB 5 0)) (fun t => t.reg 0 == 4 && t.pc == 3) = true := by
  decide
theorem test_cmp_v70 :
    after (exec (.cmp 0 1) (withAB 3 5)) (fun t => t.flags == ⟨true, false, false⟩ && t.pc == 3) = true := by decide
theorem test_cmp_v74 :
    after (exec (.cmp 0 1) (withAB 0xFF 1)) (fun t => t.flags == ⟨false, true, false⟩) = true := by decide
theorem test_jmp_v80 :
    after (exec (.jmp 3) ((State.reset.setReg 3 0x0C).setPc 0x10)) (fun t => t.pc == 0x0C) = true := by decide
theorem test_jeq_v82 :
    after (exec (.jeq 2) (((State.reset.setReg 2 0x40).setPc 0x20).withFlags ⟨false, false, true⟩))
      (fun t => t.pc == 0x40) = true := by decide
theorem test_jeq_v88 :
    after (exec (.jeq 2) (((State.reset.setReg 2 0x40).setPc 0x20).withFlags ⟨true, false, false⟩))
      (fun t => t.pc == 0x22) = true := by decide
theorem test_jne_v87 : after (exec (.jne 0) (withAB 6 0)) (fun t => t.pc == 6) = true := by decide
theorem test_jne_v85 :
    after (exec (.jne 3) ((State.reset.setPc 0x15).withFlags ⟨false, false, true⟩)) (fun t => t.pc == 0x17) = true := by
  decide
theorem test_call_v90 :
    after (exec (.call 2) (((State.reset.setReg 2 8).setPc 0xFE).setMem [(0xF3, 1)]))
      (fun t => t.reg 7 == 0xF3 && t.mem.read 0xF3 == 0 && t.pc == 8) = true := by decide
theorem test_call_v92 :
    after (exec (.call 7) State.reset) (fun t => t.pc == 0xF3 && t.mem.read 0xF3 == 2) = true := by decide
theorem test_ret_v93 :
    after (exec .ret ((withStack 0xF2 0x0A).setPc 0x14))
      (fun t => t.pc == 0x0A && t.mem.read 0xF2 == 0 && t.reg 7 == 0xF3) = true := by decide
theorem test_ret_v94 : failsAs (exec .ret State.reset) State.reset .stackUnderflow 0xF4 = true := by decide
theorem test_hlt_v101 :
    after (exec .hlt (State.reset.setPc 0xFF)) (fun t => t.pc == 0x100 && t.run == .halted && t.fault == none)
      = true := by decide
theorem test_prn_v103 :
    after (exec (.prn 1) (withAB 0 255)) (fun t => t.out == [255] && consoleText t == ['2', '5', '5', '\n']) = true := by
  decide
theorem test_prn_v105 :
    failsAs (exec (.prn 8) State.reset) State.reset .registerIndexOutOfRange 8 = true := by decide

/-! ### The port -/

theorem test_packed_flags : packedFlags ⟨true, false, true⟩ = 0b00000101 := rfl
theorem test_fault_codes : [FaultCause.illegalInstruction, .outOfBounds, .divisionByZero, .stackUnderflow,
    .stackOverflow, .registerIndexOutOfRange].map FaultCause.code = [1, 2, 3, 4, 5, 6] := rfl
/-- V114. -/
theorem test_no_step_when_stopped : after (step State.reset.halt) (fun _ => true) = false := by decide

/-! ### Witnesses: for each obligation with hypotheses, states and operands that meet them -/

theorem witness_ResetLeavesTheListedValues : (0 : RegIdx) ≠ 7 ∧ (6 : RegIdx) ≠ 7 := by decide

theorem witness_ImageHoldsTheLoadedBytes :
    (List.replicate 256 (1 : Byte)).length ≤ 256 ∧ 256 < (List.replicate 257 (1 : Byte)).length := by
  simp only [List.length_replicate]
  decide

/-- An image that starts with RET, and one that starts with the illegal byte 0x00. -/
theorem witness_FirstStepFetchesTheFirstImageByte :
    (∃ image : Image, decode [image[0], image[1], image[2]] = .ok (.ret, [0, 0])) ∧
    ∃ image : Image, decode [image[0], image[1], image[2]] = .error (.illegalOpcode 0) :=
  ⟨⟨(Vector.replicate 256 0).set 0 0x11, by simp only [Vector.getElem_set, Vector.getElem_replicate]; rfl⟩,
   ⟨Vector.replicate 256 0, by simp only [Vector.getElem_replicate]; rfl⟩⟩

theorem coreInv_loaded : CoreInv (loadedAt 0xFD [0x82, 0, 7]) :=
  ⟨by decide, by decide, by decide, by decide, fun _ h => by cases h⟩

/-- One step that commits, one that faults. -/
theorem witness_StepKeepsCoreInv :
    (∃ s t, CoreInv s ∧ step s = .next t ∧ t.run = .running) ∧
    ∃ s t, CoreInv s ∧ step s = .next t ∧ t.run = .failed :=
  ⟨⟨loadedAt 0xFD [0x82, 0, 7], _, coreInv_loaded, rfl, rfl⟩,
   ⟨State.reset, _, ⟨by decide, by decide, by decide, by decide, fun _ h => by cases h⟩, rfl, rfl⟩⟩

theorem witness_ObservationPortShowsTheRun :
    State.reset.run = .running ∧ State.reset.halt.run ≠ .running := by decide

theorem witness_MemoryReadsBackWhatWasWritten :
    Memory.wf [(0, 1), (255, 0xFF)] ∧ (255 : Nat) < 256 ∧ (256 : Nat) ≤ 256 := by decide

theorem witness_MemoryFormIsCanonical : ∃ m n : Memory, m.wf ∧ n.wf ∧ m ≠ [] ∧
    ∀ a, a < 256 → memRead m a = memRead n a :=
  ⟨[(255, 1)], Memory.write (Memory.write [] 255 1) 0 0, by decide, by decide, by decide, fun _ _ => rfl⟩

theorem witness_OnlyStackInstructionsTouchMemory :
    isStackInstr .hlt = false ∧ (∃ t, exec .hlt State.reset = .next t) ∧
    (withStack 1 5).mem.wf ∧ (withStack 1 5).sp ≠ 0#8 ∧
    (withStack 0xF3 5).mem.wf ∧ (withStack 0xF3 5).sp.toNat < 0xF4 :=
  ⟨rfl, ⟨_, rfl⟩, by decide, by decide, by decide, by decide⟩

/-- PUSH r0 at 0, `SP` = 3, x[0] = 0x01. -/
theorem witness_PushedByteIsExecutedByTheNextStep :
    let s := ((loaded [0x45, 0]).setSp 3).setReg 0 1
    s.mem.wf ∧ s.run = .running ∧ memRead s.mem s.pc.toNat = some 0x45 ∧
    memRead s.mem (s.pc.toNat + 1) = some (regByte 0) ∧ s.sp ≠ 0#8 ∧ pushAddr s = s.pc.toNat + 2 ∧
    s.reg 0 = 0x01#8 := by decide

theorem witness_RegistersReadAndWrittenAsTabulated :
    (1 : RegIdx) ∉ writtenRegs (.ldi 0 7) ∧ (∃ t, exec (.ldi 0 7) State.reset = .next t ∧ t.run ≠ .failed) ∧
    (0 : RegIdx) ∉ readRegs State.reset (.ldi 0 7) ∧ (0 : RegIdx) ∈ writtenRegs (.ldi 0 7) ∧
    (withStack 0xF3 5).sp.toNat < 0xF4 :=
  ⟨by decide, ⟨_, rfl, by decide⟩, by decide, by decide, by decide⟩

theorem witness_OnlyCmpWritesAndOnlyJeqJneReadFlags :
    (∃ t, exec .hlt State.reset = .next t) ∧ (∀ a b, Instr.hlt ≠ .cmp a b) ∧
    (∀ a, Instr.hlt ≠ .jeq a ∧ Instr.hlt ≠ .jne a) ∧ (∀ a b, Instr.jeq 0 ≠ .cmp a b) ∧
    (Flags.mk true false false).e = State.reset.flags.e ∧
    ∃ t, State.reset.run = .running ∧ step State.reset = .next t ∧ t.run = .failed :=
  ⟨⟨_, rfl⟩, by simp, by simp, by simp, rfl, ⟨_, rfl, rfl, rfl⟩⟩

/-- The longest instruction at the last address where it fits: committing, and failing. -/
theorem witness_ProgramCounterAsTabulated :
    (∃ t, (loadedAt 0xFD []).run = .running ∧ (loadedAt 0xFD []).pc.toNat + (encode (.ldi 0 1)).length ≤ 256 ∧
      exec (.ldi 0 1) (loadedAt 0xFD []) = .next t ∧ t.run ≠ .failed) ∧
    (∃ t, (loadedAt 0xFD []).pc.toNat + (encode (.mod 0 1)).length ≤ 256 ∧
      exec (.mod 0 1) (loadedAt 0xFD []) = .next t ∧ t.run = .failed) ∧
    ∃ t, step State.reset = .next t ∧ t.run = .failed :=
  ⟨⟨_, rfl, by decide, rfl, by decide⟩, ⟨_, by decide, rfl, rfl⟩, ⟨_, rfl, rfl⟩⟩

theorem witness_ProgramCounterIsDataForCallAlone :
    (∀ a, Instr.jmp 0 ≠ .call a) ∧ (withStack 1 5).sp ≠ 0#8 ∧ (withStack 1 5).mem.wf ∧
    ∃ t, step State.reset = .next t ∧ t.run = .failed :=
  ⟨by simp, by decide, by decide, ⟨_, rfl, rfl⟩⟩

theorem witness_OutputGrowsByPrnAlone :
    (∃ t, exec (.ldi 0 7) State.reset = .next t) ∧ (∀ a, Instr.ldi 0 7 ≠ .prn a) ∧
    ∃ t, step (loaded [0x47, 0]) = .next t ∧ Reaches (loaded [0x47, 0]) t :=
  ⟨⟨_, rfl⟩, by simp, ⟨_, rfl, .tail (.refl _) rfl⟩⟩

theorem witness_RegisterInstructionsFrame :
    (∃ b, Instr.shr 0 1 = .shr 0 b) ∧ (∃ t, exec (.shr 0 1) State.reset = .next t) ∧
    (0 : Byte) ≠ regByte 7 :=
  ⟨⟨1, rfl⟩, ⟨_, rfl⟩, by decide⟩

theorem witness_NoRegisterInstructionsFrame :
    (∃ t, exec (.cmp 0 1) State.reset = .next t) ∧ (∀ a, Instr.cmp 0 1 ≠ .prn a) ∧
    (∃ t, exec (.prn 8) State.reset = .next t) ∧ ∀ a b, Instr.prn 8 ≠ .cmp a b :=
  ⟨⟨_, rfl⟩, by simp, ⟨_, rfl⟩, by simp⟩

/-- A push that stores at the lowest address, and one that overflows. -/
theorem witness_PushAndCallFrame :
    (withStack 1 5).mem.wf ∧ (∃ t, exec (.push 0) (withStack 1 5) = .next t ∧ t.run = .running) ∧
    (withStack 0 5).mem.wf ∧ ∃ t, exec (.call 0) (withStack 0 5) = .next t ∧ t.run = .failed :=
  ⟨by decide, ⟨_, rfl, rfl⟩, by decide, ⟨_, rfl, rfl⟩⟩

/-- A pop of the last byte, and one that underflows. -/
theorem witness_PopAndRetFrame :
    (withStack 0xF3 5).mem.wf ∧ (∃ t, exec (.pop 0) (withStack 0xF3 5) = .next t ∧ t.run = .running) ∧
    (1 : RegIdx) ≠ 7 ∧ Instr.pop 0 ≠ .pop (regByte 1) ∧
    (withStack 0xF4 5).mem.wf ∧ ∃ t, exec .ret (withStack 0xF4 5) = .next t ∧ t.run = .failed :=
  ⟨by decide, ⟨_, rfl, rfl⟩, by decide, by decide, by decide, ⟨_, rfl, rfl⟩⟩

theorem witness_LdiLoadsTheLiteral : 7 < (8 : Byte).toNat := by decide

theorem witness_PushStoresTheRegister : (withStack 1 5).mem.wf ∧ (withStack 1 5).sp ≠ 0#8 := by decide

theorem witness_PopLoadsTheRegister :
    (withStack 0xF3 5).mem.wf ∧ (withStack 0xF3 5).sp.toNat < 0xF4 ∧ (6 : RegIdx) ≠ 7 := by decide

theorem witness_StackInstructionsNamingRegisterSeven :
    (withStack 1 5).mem.wf ∧ 1 ≤ (withStack 1 5).sp.toNat ∧
    (withStack 0xF3 5).mem.wf ∧ (withStack 0xF3 5).sp.toNat < 0xF4 := by decide

theorem witness_PushThenPopRoundTrips :
    (withStack 1 5).mem.wf ∧ (6 : RegIdx) ≠ 7 ∧ 1 ≤ (withStack 1 5).sp.toNat ∧ (withStack 1 5).sp.toNat ≤ 0xF4 ∧
    1 ≤ State.reset.sp.toNat ∧ State.reset.sp.toNat ≤ 0xF4 := by decide

theorem witness_ResetStackHoldsExactly244Bytes : (244 : Nat) ≤ 244 ∧ (0 : Nat) ≤ 244 := by decide

theorem witness_AluInstructionsComputeTheirFunctions : ((withAB 5 1).reg 1).toNat ≠ 0 := by decide

theorem witness_LongShiftsGiveZero : 8 ≤ ((withAB 0xFF 8).reg 1).toNat := by decide

theorem witness_JeqAndJneBranchOnEqual :
    State.reset.flags.e = false ∧ (State.reset.withFlags ⟨false, false, true⟩).flags.e = true := by decide

theorem witness_CallPushesTheReturnAddress : (withStack 1 5).mem.wf ∧ (withStack 1 5).sp ≠ 0#8 := by decide

theorem witness_RetPopsTheProgramCounter :
    (withStack 0xF3 5).mem.wf ∧ (withStack 0xF3 5).sp.toNat < 0xF4 := by decide

theorem witness_CallThenRetComesBack :
    State.reset.mem.wf ∧ 1 ≤ State.reset.sp.toNat ∧ State.reset.sp.toNat ≤ 0xF4 ∧
    ∃ t u : State, exec (.call (regByte 1)) State.reset = .next t ∧ u.sp = t.sp ∧
      memRead u.mem u.sp.toNat = memRead t.mem t.sp.toNat :=
  ⟨by decide, by decide, by decide, ⟨_, _, rfl, rfl, rfl⟩⟩

theorem witness_PrnEmitsTheRegister : 7 < (8 : Byte).toNat := by decide

theorem witness_LdiThenPrnPrintsTheValue :
    let s := loaded [0x82, 0, 5, 0x47, 0]
    s.run = .running ∧
    ∀ k : Fin 5, memRead s.mem (s.pc.toNat + k.val) = some (#v[0x82, regByte 0, 5, 0x47, regByte 0][k]) := by
  decide

theorem witness_ModByZeroFaults : (withAB 5 0).reg 1 = 0#8 := by decide

theorem witness_PopAtTheBaseFaults : 0xF4 ≤ (State.reset.reg 7).toNat := by decide

theorem witness_PushAtTheFloorFaults : (withStack 0 5).reg 7 = 0#8 := by decide

theorem witness_BadRegisterOperandFaults :
    (Instr.add 9 10).regOperands.find? (fun c => !regOperandOk c) = some 9 ∧
    ∃ t r, State.reset.fault = none ∧ (Instr.pop 0).wellFormed = true ∧
      exec (.pop 0) State.reset = .next t ∧ t.fault = some r :=
  ⟨rfl, ⟨_, _, rfl, rfl, rfl, rfl⟩⟩

theorem witness_FaultsChangeNothingElse :
    (∃ t, step State.reset = .next t ∧ t.run = .failed) ∧
    ∃ t, State.reset.run = .running ∧ exec .ret State.reset = .next t ∧ t.run = .failed :=
  ⟨⟨_, rfl, rfl⟩, ⟨_, rfl, rfl, rfl⟩⟩

/-- Every cause as the first fault, at a boundary, and no fault. -/
theorem witness_StepRaisesTheFirstFaultInPhaseOrder :
    State.reset.run = .running ∧ (loadedAt 0xFE [0xA0, 9]).run = .running ∧
    firstFault (State.reset.setPc 0x100) = some (.outOfBounds, 256) ∧
    firstFault State.reset = some (.illegalInstruction, 0) ∧
    firstFault (loadedAt 0xFE [0xA0, 9]) = some (.outOfBounds, 256) ∧
    firstFault (loadedAt 0xFD [0xA0, 9, 10]) = some (.registerIndexOutOfRange, 9) ∧
    firstFault (loaded [0xA4, 0, 1]) = some (.divisionByZero, 1) ∧
    firstFault ((loaded [0x45, 0]).setSp 0) = some (.stackOverflow, 0) ∧
    firstFault (loaded [0x11]) = some (.stackUnderflow, 0xF4) ∧
    firstFault (loadedAt 0xFF [0x01]) = none := by decide

theorem witness_OpcodeFetchAndDecode :
    256 ≤ (State.reset.setPc 0x100).pc.toNat ∧ (State.reset.setPc 0x100).run = .running ∧
    memRead (loadedAt 0xFF []).mem (loadedAt 0xFF []).pc.toNat = some 0 ∧ (∀ o : Op, opcodeMap o ≠ 0) ∧
    memRead (loadedAt 0xFF [0x11]).mem (loadedAt 0xFF [0x11]).pc.toNat = some (opcodeMap .ret) ∧
    fetchInstr (loadedAt 0xFF [0x11]) = .ok .ret :=
  ⟨by decide, by decide, by decide, fun o => by cases o <;> decide, by decide, rfl⟩

/-- Each length, at the last address where it fits and the first where it does not. -/
theorem witness_OperandFetchAtTheEndOfMemory :
    (256 < (loadedAt 0xFF [0x47]).pc.toNat + Op.prn.format.length ∧
      memRead (loadedAt 0xFF [0x47]).mem 0xFF = some (opcodeMap .prn)) ∧
    (256 < (loadedAt 0xFE [0x82]).pc.toNat + Op.ldi.format.length ∧
      memRead (loadedAt 0xFE [0x82]).mem 0xFE = some (opcodeMap .ldi)) ∧
    ((loadedAt 0xFE [0x47]).pc.toNat + Op.prn.format.length ≤ 256 ∧
      memRead (loadedAt 0xFE [0x47]).mem 0xFE = some (opcodeMap .prn)) ∧
    (loadedAt 0xFD [0x82]).pc.toNat + Op.ldi.format.length ≤ 256 ∧
      memRead (loadedAt 0xFD [0x82]).mem 0xFD = some (opcodeMap .ldi) := by decide

theorem witness_StepRunsTheDecodedInstruction :
    let s := loadedAt 0xFD [0x82, 0, 7]
    s.run = .running ∧ ∀ k (h : k < (encode (.ldi 0 7)).length),
      memRead s.mem (s.pc.toNat + k) = some (encode (.ldi 0 7))[k] := by decide

theorem witness_RunStateTransitions :
    State.reset.run = .running ∧ State.reset.halt.run = .halted ∧
    (State.reset.failWith .outOfBounds 256).run = .failed := by decide

theorem witness_RunEndsOnlyByHltOrFault :
    (∃ t, step (loaded [0x01]) = .next t ∧ t.run ≠ .running) ∧
    State.reset.halt.run ≠ .running ∧ Reaches State.reset.halt State.reset.halt :=
  ⟨⟨_, rfl, by decide⟩, by decide, .refl _⟩

theorem witness_DecodeEncodeUnderAnyLegalMap : opcodeMap.Legal := by
  refine ⟨?_, rfl, rfl, rfl⟩
  intro a b h
  revert h
  cases a <;> cases b <;> decide

theorem witness_DecodedBytesAreTheEncoding :
    decodeWith opcodeMap [0x82, 0, 7, 0x47] = .ok (.ldi 0 7, [0x47]) := rfl

theorem witness_FormatsAndLengths :
    decodeWith opcodeMap (0x45 :: [1]) = .ok (.push 1, []) ∧
    decodeWith opcodeMap (0x45 :: [9, 0]) = .ok (.push 9, [0]) := ⟨rfl, rfl⟩

end Sys2Proof.Tests
end

section
/-! PROOFS. The state family (spec/10_state.md): flags, program counter and run state. First what a
failing step leaves, what a commit reads and writes of the flags and of `pc`; then the obligations. -/

namespace Sys2Proof.Proofs

open Sys2Proof Sys2Proof.Machine Sys2Proof.Claims

variable {s t : State} {i : Instr}

/-! ### What a fault leaves -/

/-- No commit fails the core; only a trap does (R24, R158). -/
theorem commitOf_run_ne_failed (hr : s.run = .running) (i : Instr) : (commitOf s i).run ≠ .failed := by
  rw [commitOf_run, hr]
  split <;> decide

/-- An instruction of a running core that ends in Failed has taken a fault. -/
theorem exec_failed (hr : s.run = .running) (h : exec i s = .next t) (hf : t.run = .failed) :
    ∃ c n, t = s.failWith c n := by
  rcases exec_next_cases h with ⟨p, -, rfl⟩ | ⟨-, rfl⟩
  · exact ⟨p.1, p.2, rfl⟩
  · exact absurd hf (commitOf_run_ne_failed hr i)

/-- A step that ends in Failed has taken a fault, in the fetch or in the instruction. -/
theorem step_failed_eq_failWith (h : step s = .next t) (hf : t.run = .failed) :
    ∃ c n, t = s.failWith c n := by
  obtain ⟨hr, ⟨p, -, rfl⟩ | ⟨i, -, he⟩⟩ := step_next_cases h
  · exact ⟨p.1, p.2, rfl⟩
  · exact exec_failed hr he hf

/-- A step that ends in Failed leaves `pc` where it was (R15, R158). -/
theorem step_failed_pc (h : step s = .next t) (hf : t.run = .failed) : t.pc = s.pc := by
  obtain ⟨c, n, rfl⟩ := step_failed_eq_failWith h hf
  rfl

/-! ### Which parts of the state an instruction looks at -/

/-- An instruction's own fault condition reads registers only. -/
theorem checkOf_congr (h : ∀ q, t.reg q = s.reg q) (i : Instr) : checkOf t i = checkOf s i := by
  have hsp : t.sp = s.sp := h 7
  cases i <;> simp only [checkOf, h, hsp]

/-- Whether an instruction faults, and how, depends on the registers only. -/
theorem trapOf_congr (h : ∀ q, t.reg q = s.reg q) (i : Instr) : trapOf t i = trapOf s i := by
  rw [trapOf, trapOf, checkOf_congr h]

/-- Only CMP's commit writes the flags (R19). -/
theorem commitOf_flags (s : State) (hcmp : ∀ a b, i ≠ .cmp a b) : (commitOf s i).flags = s.flags := by
  cases i
  case cmp a b => exact absurd rfl (hcmp a b)
  case jeq | jne => simp only [commitOf]; split <;> rfl
  all_goals rfl

/-- CMP commits the comparison of its two registers (R121). -/
theorem exec_cmp (a b : RegIdx) (s : State) : exec (.cmp (regByte a) (regByte b)) s =
    .next ((setFlags s (s.reg a) (s.reg b)).advance 3) :=
  onRegs_regByte s a b _

/-- A commit other than CMP's carries any flags along; JEQ's and JNE's does when `E` is the same (R19). -/
theorem commitOf_withFlags {f : Flags} (hcmp : ∀ a b, i ≠ .cmp a b)
    (hread : (∀ a, i ≠ .jeq a ∧ i ≠ .jne a) ∨ f.e = s.flags.e) :
    commitOf (s.withFlags f) i = (commitOf s i).withFlags f := by
  cases i
  case cmp a b => exact absurd rfl (hcmp a b)
  case jeq a =>
    have he : f.e = s.flags.e := hread.resolve_left fun h => (h a).1 rfl
    simp only [commitOf, State.withFlags_flags, he]
    split <;> rfl
  case jne a =>
    have he : f.e = s.flags.e := hread.resolve_left fun h => (h a).2 rfl
    simp only [commitOf, State.withFlags_flags, he]
    split <;> rfl
  all_goals rfl

/-- From another `pc`, a commit other than CALL's differs in `pc` alone (R16). -/
theorem commitOf_setPc (s : State) (p : PcWord) (hcall : ∀ a, i ≠ .call a) :
    ∃ p', commitOf (s.setPc p) i = (commitOf s i).setPc p' := by
  cases i
  case call a => exact absurd rfl (hcall a)
  case jeq | jne =>
    by_cases he : s.flags.e = true
    all_goals
      simp only [commitOf, State.setPc_flags, he]
      exact ⟨_, rfl⟩
  all_goals exact ⟨_, rfl⟩

/-! ### The table of the program counter (R15) -/

/-- An advance that stays inside memory does not wrap. -/
theorem advance_pc_toNat {n : PcWord} (h : s.pc.toNat + n.toNat ≤ 256) :
    (s.advance n).pc.toNat = s.pc.toNat + n.toNat := by
  rw [State.advance_pc, BitVec.toNat_add]
  omega

/-- A legal operand byte names the register the meanings use. -/
theorem regIndex_of_ok {b : Byte} (h : regOperandOk b = true) : regIndex b = some (regOf b) :=
  regIndex_eq_some.2 (regByte_regOf h)

theorem valueOf_of_ok {b : Byte} (s : State) (h : regOperandOk b = true) :
    valueOf s b = (s.reg (regOf b)).toNat := by
  rw [valueOf, regIndex_of_ok h]

/-- CALL's target is its register read in the state after the push (R133). -/
theorem callTarget_of_ok {b : Byte} (s : State) (v : Nat) (h : regOperandOk b = true) :
    callTarget s b = ((s.pushed v).reg (regOf b)).toNat := by
  simp only [callTarget, regIndex_of_ok h, State.pushed_reg]
  split <;> rfl

/-- A register's number is an address. -/
theorem valueOf_le (s : State) (b : Byte) : valueOf s b ≤ 256 := by
  unfold valueOf
  split <;> omega

theorem callTarget_le (s : State) (b : Byte) : callTarget s b ≤ 256 := by
  unfold callTarget
  split
  · split <;> omega
  · omega

/-- A commit writes the `pc` of the table. -/
theorem commitOf_pc_toNat (hfit : s.pc.toNat + (encode i).length ≤ 256)
    (hok : ∀ b ∈ i.regOperands, regOperandOk b = true) : (commitOf s i).pc.toNat = nextPc s i := by
  cases i
  case hlt => exact advance_pc_toNat hfit
  case prn | push | pop | not => exact advance_pc_toNat (n := 2) hfit
  case ldi | addi | add | mul | mod | and | or | xor | shl | shr | cmp => exact advance_pc_toNat (n := 3) hfit
  case ret => exact zext9_toNat _
  case jmp a =>
    rw [nextPc, valueOf_of_ok s (hok a (.head _))]
    exact zext9_toNat _
  case call a =>
    rw [nextPc, callTarget_of_ok s (s.pc.toNat + 2) (hok a (.head _))]
    exact zext9_toNat _
  case jeq a =>
    rw [nextPc, commitOf, valueOf_of_ok s (hok a (.head _))]
    split
    · exact zext9_toNat _
    · exact advance_pc_toNat hfit
  case jne a =>
    rw [nextPc, commitOf, valueOf_of_ok s (hok a (.head _))]
    split
    · exact advance_pc_toNat hfit
    · exact zext9_toNat _

/-- The `pc` of the table is an address, or 256 just past the last byte (R14). -/
theorem nextPc_le (hfit : s.pc.toNat + (encode i).length ≤ 256) : nextPc s i ≤ 256 := by
  cases i
  case jmp a => exact valueOf_le s a
  case call a => exact callTarget_le s a
  case ret => exact Nat.le_of_lt (BitVec.isLt _)
  case jeq a =>
    rw [nextPc]
    split
    · exact valueOf_le s a
    · exact hfit
  case jne a =>
    rw [nextPc]
    split
    · exact hfit
    · exact valueOf_le s a
  all_goals exact hfit

/-! ### CALL from another `pc` -/

/-- A CALL with room commits, whatever `pc` is. -/
theorem exec_call_commits (r : RegIdx) (hs : s.sp ≠ 0#8) :
    exec (.call (regByte r)) s = .next (commitOf s (.call (regByte r))) :=
  exec_commits (by simp [Instr.regOperands]) (by simp [checkOf, hs])

/-- What a push of another value leaves differs at the pushed byte alone (R42). -/
theorem memSameBut_pushed (hm : s.mem.wf) (v w : Nat) : MemSameBut (pushAddr s) (s.pushed v) (s.pushed w) := by
  intro a ha
  rw [pushAddr] at ha
  rw [State.pushed_mem, State.pushed_mem, memRead_write_ne hm _ ha, memRead_write_ne hm _ ha]

/-! ### The obligations -/

/-- Settles O12: the three flags are the three sides of one trichotomy. -/
theorem setFlagsSetsExactlyOneFlag : Obligations.SetFlagsSetsExactlyOneFlag := by
  intro s a b
  have hflags : (setFlags s a b).flags = compareBytes a b := rfl
  simp only [hflags, compareBytes_l, compareBytes_g, compareBytes_e, decide_eq_true_eq, ← BitVec.toNat_inj,
    true_and]
  refine ⟨?_, fun _ => rfl, rfl, fun _ => rfl, rfl, rfl, rfl⟩
  rcases Nat.lt_trichotomy a.toNat b.toNat with h | h | h
  · simp [h, h.ne, h.le]
  · simp [h]
  · simp [h, h.ne', h.le]

/-- Settles O13: a trap looks at registers alone, and a commit other than CMP's carries the flags along. -/
theorem onlyCmpWritesAndOnlyJeqJneReadFlags : Obligations.OnlyCmpWritesAndOnlyJeqJneReadFlags := by
  refine ⟨?writers, ?cmpWrites, ?cmpIgnores, ?readers, ?fault⟩
  case writers =>
    intro i s t h hcmp
    rcases exec_next_cases h with ⟨p, -, rfl⟩ | ⟨-, rfl⟩
    · rfl
    · exact commitOf_flags s hcmp
  case cmpWrites =>
    intro a b s
    exact ⟨_, exec_cmp a b s, rfl⟩
  case cmpIgnores =>
    intro a b s f
    exact (exec_cmp a b (s.withFlags f)).trans (exec_cmp a b s).symm
  case readers =>
    intro i s f hcmp hread
    have htrap : trapOf (s.withFlags f) i = trapOf s i := trapOf_congr (fun _ => rfl) i
    rw [exec_eq, exec_eq, htrap, commitOf_withFlags hcmp hread]
    cases trapOf s i with
    | some p => exact ⟨_, rfl, rfl⟩
    | none => exact ⟨_, rfl, rfl⟩
  case fault =>
    intro s t _ h hf
    obtain ⟨c, n, rfl⟩ := step_failed_eq_failWith h hf
    rfl

/-- Settles O14: a commit's `pc` is the table's, row by row; a fault's is the old one. -/
theorem programCounterAsTabulated : Obligations.ProgramCounterAsTabulated := by
  refine ⟨fun i s t hr hfit h => ?_, fun s t h hf => step_failed_pc h hf⟩
  rcases exec_next_cases h with ⟨p, -, rfl⟩ | ⟨htrap, rfl⟩
  · exact ⟨fun _ => rfl, fun hne => absurd rfl hne⟩
  · refine ⟨fun hf => absurd hf (commitOf_run_ne_failed hr i), fun _ => ?_⟩
    have hpc := commitOf_pc_toNat hfit (regOperands_ok htrap)
    exact ⟨hpc, hpc ▸ nextPc_le hfit⟩

/-- Settles O15: traps and commits other than CALL's differ in `pc` and the record's `at` alone; CALL's
commit pushes another byte at the same address and reads the same registers after it. -/
theorem programCounterIsDataForCallAlone : Obligations.ProgramCounterIsDataForCallAlone := by
  refine ⟨?others, ?call, fun s t h hf => step_failed_pc h hf⟩
  case others =>
    intro i s p hcall
    have htrap : trapOf (s.setPc p) i = trapOf s i := trapOf_congr (fun _ => rfl) i
    obtain ⟨p', hcommit⟩ := commitOf_setPc s p hcall
    rw [exec_eq, exec_eq, htrap, hcommit]
    cases trapOf s i with
    | some c => exact ⟨_, _, rfl, rfl, fun _ => rfl, rfl, rfl, rfl, rfl⟩
    | none => exact ⟨_, _, rfl, rfl, fun _ => rfl, rfl, rfl, rfl, rfl⟩
  case call =>
    intro r s p hs
    exact ⟨_, _, exec_call_commits r hs, exec_call_commits (s := s.setPc p) r hs, fun _ => rfl, rfl,
      ⟨rfl, rfl, rfl, rfl⟩, fun hm => memSameBut_pushed hm (s.pc.toNat + 2) (p.toNat + 2)⟩

/-- Settles O47: from Running, the fetch or the instruction traps, or the commit's run state is HLT's or the
old one; from Halted and Failed `step` answers its stop. -/
theorem runStateTransitions : Obligations.RunStateTransitions := by
  refine ⟨fun _ _ => rfl, fun s hr => ?_, ?terminal⟩
  case terminal =>
    rintro s (hr | hr) t
    · rw [step_halted hr]
      exact nofun
    · rw [step_failed hr]
      exact nofun
  rw [step_running hr]
  cases hfetch : fetchInstr s with
  | error p => exact ⟨_, rfl, .inl ⟨p.1, p.2, rfl⟩⟩
  | ok i =>
    simp only [exec_eq]
    cases htrap : trapOf s i with
    | some p => exact ⟨_, rfl, .inl ⟨p.1, p.2, rfl⟩⟩
    | none =>
      refine ⟨_, rfl, .inr ⟨i, rfl, by rw [htrap, settle], ?_⟩⟩
      rw [commitOf_run]
      by_cases hi : i = .hlt
      · exact .inl ⟨hi, if_pos hi⟩
      · exact .inr ⟨hi, by rw [if_neg hi, hr]⟩

end Sys2Proof.Proofs
end

section
/-! PROOFS. The encoding family (spec/30_encoding.md): what a successful decode says of the opcode byte,
and the length of an encoding; then the obligation. -/

namespace Sys2Proof.Proofs

open Sys2Proof

/-- A decoded instruction is of the operation its first byte stands for, its operand bytes follow (R60, R64). -/
theorem decodeWith_cons_ok {m : OpcodeMap} {b : Byte} {bytes rest : List Byte} {i : Instr}
    (h : decodeWith m (b :: bytes) = .ok (i, rest)) :
    lookupOp m b = some i.op ∧ bytes = i.operandBytes ++ rest := by
  rw [decodeWith_cons] at h
  cases hop : lookupOp m b with
  | none =>
    rw [hop] at h
    cases h
  | some o =>
    rw [hop] at h
    obtain ⟨rfl, hbytes⟩ := decodeOperands_ok h
    exact ⟨rfl, hbytes⟩

/-- Under any opcode map the format of the operation gives the length of an encoding (R60). -/
theorem encodeWith_length (m : OpcodeMap) (i : Instr) : (encodeWith m i).length = i.op.format.length := by
  cases i <;> rfl

/-- Settles O51: the rows are the encoder's own; two decodes from one first byte look up one operation, and
its format gives both lengths. -/
theorem formatsAndLengths : Obligations.FormatsAndLengths := by
  refine ⟨?rows, ?lengths⟩
  case rows =>
    intro m a b
    and_intros <;> rfl
  case lengths =>
    intro m b r₁ r₂ t₁ t₂ i₁ i₂ h₁ h₂
    obtain ⟨hop₁, -⟩ := decodeWith_cons_ok h₁
    obtain ⟨hop₂, -⟩ := decodeWith_cons_ok h₂
    have hop : i₁.op = i₂.op := Option.some.inj (hop₁.symm.trans hop₂)
    rw [encodeWith_length, encodeWith_length, hop]

end Sys2Proof.Proofs
end

section
/-! PROOFS. The execution cycle family (spec/40_execution_cycle.md): which causes an instruction may raise,
what a stopped core does, what the opcode byte decides in the fetch; then the obligations. -/

namespace Sys2Proof.Proofs

open Sys2Proof Sys2Proof.Machine Sys2Proof.Claims

variable {s t : State} {i : Instr}

/-! ### Which causes an instruction may raise -/

/-- A trap behind a guard has the cause that stands behind the guard. -/
theorem guardedTrap_cause {c : Prop} [Decidable c] {p q : Trap} (h : (if c then some q else none) = some p) :
    p.1 = q.1 := by
  obtain ⟨-, hq⟩ := Option.ite_none_right_eq_some.1 h
  rw [Option.some.inj hq]

/-- An instruction's own check raises only the causes R84 names for it. -/
theorem checkOf_cause {p : Trap} (h : checkOf s i = some p) :
    (p.1 = .divisionByZero ∧ ∃ a b, i = .mod a b) ∨
    (p.1 = .stackOverflow ∧ ∃ a, i = .push a ∨ i = .call a) ∨
    (p.1 = .stackUnderflow ∧ (i = .ret ∨ ∃ a, i = .pop a)) := by
  cases i
  case mod a b => exact .inl ⟨guardedTrap_cause h, a, b, rfl⟩
  case push a => exact .inr (.inl ⟨guardedTrap_cause h, a, .inl rfl⟩)
  case call a => exact .inr (.inl ⟨guardedTrap_cause h, a, .inr rfl⟩)
  case pop a => exact .inr (.inr ⟨guardedTrap_cause h, .inr ⟨a, rfl⟩⟩)
  case ret => exact .inr (.inr ⟨guardedTrap_cause h, .inl rfl⟩)
  all_goals exact absurd h nofun

/-- A trap is that of a bad register operand, or the one of the instruction's own check. -/
theorem trapOf_cases {p : Trap} (h : trapOf s i = some p) :
    p.1 = .registerIndexOutOfRange ∨ checkOf s i = some p := by
  rw [trapOf, firstTrap] at h
  split at h
  · cases h
    exact .inl rfl
  · exact .inr h

/-! ### A stopped core -/

/-- A core that is not Running has no next state (R24, R87). -/
theorem step_ne_next_of_stopped (hr : s.run ≠ .running) : step s ≠ .next t := fun h =>
  hr (step_next_cases h).1

/-- A core that is not Running reaches itself alone. -/
theorem reaches_of_stopped (hr : s.run ≠ .running) (h : Reaches s t) : t = s := by
  induction h with
  | refl => rfl
  | tail _ hstep ih =>
    subst ih
    exact absurd hstep (step_ne_next_of_stopped hr)

/-! ### What the opcode byte decides -/

/-- A fault of the fetch is the step's (R81, R82). -/
theorem step_of_fetchInstr_error {p : Trap} (hr : s.run = .running) (h : fetchInstr s = .error p) :
    step s = .next (s.failWith p.1 p.2) := by
  rw [step_running hr, h]
  rfl

/-- The first byte of the fetch window is the byte at its address. -/
theorem fetchBytes_succ_of_memRead {m : Memory} {a : Nat} {b : Byte} (n : Nat) (h : memRead m a = some b) :
    fetchBytes m a (n + 1) = b :: fetchBytes m (a + 1) n := by
  simp only [fetchBytes, h]

/-- Past the end of memory the opcode fetch is out of bounds (R81). -/
theorem fetchInstr_past_end (h : 256 ≤ s.pc.toNat) : fetchInstr s = .error (.outOfBounds, s.pc.toNat) := by
  have hnone : fetchBytes s.mem s.pc.toNat 3 = [] := by
    rw [fetchBytes_eq, Nat.sub_eq_zero_of_le h]
    rfl
  rw [fetchInstr, hnone]
  rfl

/-- A byte outside the opcode map is an illegal instruction, however many bytes follow it (R68, R81). -/
theorem fetchInstr_illegal {b : Byte} (hb : memRead s.mem s.pc.toNat = some b)
    (hop : lookupOp opcodeMap b = none) : fetchInstr s = .error (.illegalInstruction, b.toNat) := by
  rw [fetchInstr, decode, fetchBytes_succ_of_memRead 2 hb, decodeWith_cons, hop]

/-- What is fetched is what the decoder reads from the fetch window. -/
theorem decode_of_fetchInstr_ok (h : fetchInstr s = .ok i) :
    ∃ rest, decode (fetchBytes s.mem s.pc.toNat 3) = .ok (i, rest) := by
  rw [fetchInstr] at h
  split at h
  · rename_i rest hdecode
    cases h
    exact ⟨rest, hdecode⟩
  · cases h
  · cases h

/-- The byte at `pc` is the opcode of the fetched instruction (R81). -/
theorem lookupOp_of_fetchInstr_ok {b : Byte} (hb : memRead s.mem s.pc.toNat = some b)
    (h : fetchInstr s = .ok i) : lookupOp opcodeMap b = some i.op := by
  obtain ⟨rest, hdecode⟩ := decode_of_fetchInstr_ok h
  rw [fetchBytes_succ_of_memRead 2 hb] at hdecode
  exact (decodeWith_cons_ok hdecode).1

/-- Every row of the table of R66 is found under its own opcode value. -/
theorem lookupOp_opcodeMap (o : Op) : lookupOp opcodeMap (opcodeMap o) = some o := by
  cases o <;> rfl

/-! ### The obligations -/

/-- Settles O42: a step that ends in Failed is a trap taken from the state before; an instruction's trap is
its operands' or its own check's. -/
theorem faultsChangeNothingElse : Obligations.FaultsChangeNothingElse := by
  refine ⟨fun s t h hf => ⟨step_failed_eq_failWith h hf, fun u => step_ne_next_of_stopped ?_⟩,
    fun i s t hr h hf => ?_⟩
  · rw [hf]
    decide
  · rcases exec_next_cases h with ⟨p, htrap, rfl⟩ | ⟨-, rfl⟩
    · exact ⟨p.1, p.2, rfl, (trapOf_cases htrap).imp_right checkOf_cause⟩
    · exact absurd hf (commitOf_run_ne_failed hr i)

/-- Settles O44: the three clauses are the fetch past the end, the decode of an illegal byte, and the decode
of a byte of the map. -/
theorem opcodeFetchAndDecode : Obligations.OpcodeFetchAndDecode := by
  intro s hr
  refine ⟨fun hpc => ?_, fun op hop hno => ?_, fun o ho i hi => ?_⟩
  · exact step_of_fetchInstr_error hr (fetchInstr_past_end hpc)
  · exact step_of_fetchInstr_error hr (fetchInstr_illegal hop (lookupOp_none.2 hno))
  · have hlookup : lookupOp opcodeMap (opcodeMap o) = some i.op := lookupOp_of_fetchInstr_ok ho hi
    exact Option.some.inj (hlookup.symm.trans (lookupOp_opcodeMap o))

/-- Settles O48: the transition table gives a Running core its next state and says when that one is not
Running; a stopped core has none. -/
theorem runEndsOnlyByHltOrFault : Obligations.RunEndsOnlyByHltOrFault := by
  obtain ⟨-, hrunning, -⟩ := runStateTransitions
  refine ⟨fun s => ⟨fun hr => ?_, fun ⟨t, h⟩ => (step_next_cases h).1⟩, fun s t h hstop => ?_,
    fun s t hr => reaches_of_stopped hr⟩
  · obtain ⟨t, h, -⟩ := hrunning s hr
    exact ⟨t, h⟩
  · obtain ⟨t', h', hend⟩ := hrunning s (step_next_cases h).1
    obtain rfl : t = t' := Host.Outcome.next.inj (h.symm.trans h')
    rcases hend with hfault | ⟨i, hfetch, -, ⟨rfl, hhalted⟩ | ⟨-, hr⟩⟩
    · exact .inr hfault
    · exact .inl ⟨hfetch, hhalted⟩
    · exact absurd hr hstop

end Sys2Proof.Proofs
end

section
/-! PROOFS. The data movement family (spec/41_data_movement.md): the one effect of a register instruction,
LDI's two outcomes; then the obligation. -/

namespace Sys2Proof.Proofs

open Sys2Proof Sys2Proof.Machine Sys2Proof.Claims

/-- A register write followed by an advance is the whole effect of a register instruction. -/
theorem writesReg_setReg_advance (s : State) (r : RegIdx) (v : Byte) (n : PcWord) :
    WritesReg s ((s.setReg r v).advance n) r v n := by
  refine ⟨?written, fun q hq => ?others, rfl, fun _ => rfl, rfl, rfl, rfl, rfl⟩
  case written => rw [State.advance_reg, State.setReg_reg, if_pos rfl]
  case others => rw [State.advance_reg, State.setReg_reg, if_neg hq]

/-- LDI commits its literal to the register it names (R100). -/
theorem exec_ldi (r : RegIdx) (v : Byte) (s : State) :
    exec (.ldi (regByte r) v) s = .next ((s.setReg r v).advance 3) :=
  onReg_regByte s r _

/-- LDI of a byte that names no register raises RegisterIndexOutOfRange (R100, R156). -/
theorem exec_ldi_bad {a : Byte} (ha : 7 < a.toNat) (v : Byte) (s : State) :
    exec (.ldi a v) s = .next (s.failWith .registerIndexOutOfRange a.toNat) :=
  onReg_bad s ha _

/-- Settles O21: the operand byte is validated, then the literal is written and `pc` moves on. -/
theorem ldiLoadsTheLiteral : Obligations.LdiLoadsTheLiteral := by
  intro v s
  refine ⟨fun a => rfl, fun a ha => exec_ldi_bad ha v s, fun r => ?_⟩
  exact ⟨_, exec_ldi r v s, writesReg_setReg_advance s r v 3⟩

end Sys2Proof.Proofs
end

section
/-! PROOFS. The ALU family (spec/42_alu.md): where MOD commits; the one shape of a completed ALU write; then
the obligation. -/

namespace Sys2Proof.Proofs

open Sys2Proof Sys2Proof.Machine Sys2Proof.Claims

/-- MOD by a register that is not 0 commits the remainder (R114). -/
theorem exec_mod (a b : RegIdx) (s : State) (hb : s.reg b ≠ 0#8) : exec (.mod (regByte a) (regByte b)) s =
    .next ((s.setReg a (aluRem (s.reg a) (s.reg b))).advance 3) :=
  (onRegs_regByte s a b _).trans (if_neg hb)

/-- An instruction that commits one register write and an advance completes; the register then has every
property of the byte written, and everything else is as before. -/
theorem completesWith_of_setReg_advance {i : Instr} {s : State} {r : RegIdx} {v : Byte} {n : PcWord}
    {P : Byte → Prop} (h : exec i s = .next ((s.setReg r v).advance n)) (hv : P v) :
    CompletesWith i s fun t => P (t.reg r) ∧ WritesReg s t r (t.reg r) n := by
  have hreg : ((s.setReg r v).advance n).reg r = v := by simp
  refine ⟨_, h, ?byte, ?effect⟩
  case byte => rwa [hreg]
  case effect =>
    rw [hreg]
    exact writesReg_setReg_advance s r v n

/-- Settles O27: each row of R110 is one register write, whose byte is the row's function of the old registers;
CMP's is one flag write. -/
theorem aluInstructionsComputeTheirFunctions : Obligations.AluInstructionsComputeTheirFunctions := by
  intro ra rb v s a b Gives
  have gives {i : Instr} {n : PcWord} {r : Byte} {P : Byte → Prop}
      (h : exec i s = .next ((s.setReg ra r).advance n)) (hr : P r) : Gives i n P :=
    completesWith_of_setReg_advance h hr
  -- From here on `Gives` is opaque: `gives` is the one fact about it each row needs.
  clear_value Gives
  refine ⟨?add, ?addi, ?mul, fun hb => ?mod, ?and, ?or, ?xor, ?not, ?shl, ?shr, ?cmp⟩
  case add => exact gives (aluRR_regByte aluAdd ra rb s) (aluAdd_toNat _ _)
  case addi => exact gives (onReg_regByte s ra _) (aluAdd_toNat _ _)
  case mul => exact gives (aluRR_regByte aluMul ra rb s) (aluMul_toNat _ _)
  case mod =>
    have hb0 : s.reg rb ≠ 0#8 := fun h => hb (congrArg BitVec.toNat h)
    exact gives (exec_mod ra rb s hb0) (aluRem_toNat _ _)
  case and => exact gives (aluRR_regByte aluAnd ra rb s) fun i _ => aluAnd_bit _ _ i
  case or => exact gives (aluRR_regByte aluOr ra rb s) fun i _ => aluOr_bit _ _ i
  case xor => exact gives (aluRR_regByte aluXor ra rb s) fun i _ => aluXor_bit _ _ i
  case not => exact gives (onReg_regByte s ra _) (aluNot_toNat _)
  case shl => exact gives (aluRR_regByte aluShl ra rb s) (aluShl_toNat _ _)
  case shr => exact gives (aluRR_regByte aluShr ra rb s) (aluShr_toNat _ _)
  case cmp =>
    have hflags : ((setFlags s (s.reg ra) (s.reg rb)).advance 3).flags =
        compareBytes (s.reg ra) (s.reg rb) := rfl
    refine ⟨_, exec_cmp ra rb s, ?_, ?_, ?_, fun _ => rfl, rfl, fun _ => rfl, rfl, rfl, rfl⟩
    · rw [hflags, compareBytes_l, decide_eq_true_eq]
    · rw [hflags, compareBytes_g, decide_eq_true_eq]
    · rw [hflags, compareBytes_e, decide_eq_true_eq, BitVec.toNat_inj]

end Sys2Proof.Proofs
end

section
/-! PROOFS. The exception family (spec/60_exceptions.md): the check phase of MOD, POP and RET; then the
obligations. -/

namespace Sys2Proof.Proofs

open Sys2Proof Sys2Proof.Machine Sys2Proof.Claims

variable {s : State}

/-- MOD by a register that holds 0 raises DivisionByZero with the divisor's operand byte (R153). -/
theorem exec_mod_zero (a b : RegIdx) (hb : s.reg b = 0#8) : exec (.mod (regByte a) (regByte b)) s =
    .next (s.failWith .divisionByZero (regByte b).toNat) :=
  (onRegs_regByte s a b _).trans (if_pos hb)

/-- POP into any register raises StackUnderflow once the stack pointer is at the base (R154). -/
theorem exec_pop_underflow (r : RegIdx) (h : 0xF4 ≤ s.sp.toNat) : exec (.pop (regByte r)) s =
    .next (s.failWith .stackUnderflow s.sp.toNat) :=
  (onReg_regByte s r _).trans (popByte_underflow h)

/-- RET raises StackUnderflow once the stack pointer is at the base (R154). -/
theorem exec_ret_underflow (h : 0xF4 ≤ s.sp.toNat) : exec .ret s =
    .next (s.failWith .stackUnderflow s.sp.toNat) := by
  rw [exec, execRet, popByte_underflow h]

/-- Settles O38: both operands name registers, so the divisor check is the first fault. -/
theorem modByZeroFaults : Obligations.ModByZeroFaults :=
  fun a b _ hb => ⟨_, exec_mod_zero a b hb⟩

/-- Settles O39: POP and RET share the pop operation, whose check comes before any write. -/
theorem popAtTheBaseFaults : Obligations.PopAtTheBaseFaults :=
  fun _ h => ⟨fun r => ⟨_, exec_pop_underflow r h⟩, _, exec_ret_underflow h⟩

end Sys2Proof.Proofs
end

section
/-! PROOFS. The reset family (spec/70_reset_and_hazards.md): the bytes the first fetch after reset sees, and
when the decoder calls an opcode illegal; then the obligation. -/

namespace Sys2Proof.Proofs

open Sys2Proof Sys2Proof.Machine Sys2Proof.Claims

variable {s : State}

/-! ### When a decode is illegal -/

/-- The operand phase finds no illegal opcode: it only runs out of bytes (R82). -/
theorem decodeOperands_ne_illegal (o : Op) (bytes : List Byte) (c : Byte) :
    decodeOperands o bytes ≠ .error (.illegalOpcode c) := by
  have hone (f : Byte → Instr) : takeOne f bytes ≠ .error (.illegalOpcode c) := by
    rcases bytes with _ | ⟨a, rest⟩ <;> exact nofun
  have htwo (f : Byte → Byte → Instr) : takeTwo f bytes ≠ .error (.illegalOpcode c) := by
    rcases bytes with _ | ⟨a, _ | ⟨b, rest⟩⟩ <;> exact nofun
  cases o
  case hlt | ret => exact nofun
  case prn | push | pop | call | jmp | jeq | jne | not => exact hone _
  all_goals exact htwo _

/-- An illegal opcode is the first byte, and one the map does not hold (R68, R151). -/
theorem decodeWith_cons_illegal {m : OpcodeMap} {b c : Byte} {bytes : List Byte}
    (h : decodeWith m (b :: bytes) = .error (.illegalOpcode c)) : c = b ∧ lookupOp m b = none := by
  rw [decodeWith_cons] at h
  cases hop : lookupOp m b with
  | none =>
    rw [hop] at h
    cases h
    exact ⟨rfl, rfl⟩
  | some o =>
    rw [hop] at h
    exact absurd h (decodeOperands_ne_illegal o bytes c)

/-- What the decoder reads from the fetch window is what a Running core executes (R80). -/
theorem step_of_decode_ok {i : Instr} {rest : List Byte} (hr : s.run = .running)
    (h : decode (fetchBytes s.mem s.pc.toNat 3) = .ok (i, rest)) : step s = exec i s := by
  have hfetch : fetchInstr s = .ok i := by rw [fetchInstr, h]
  rw [step_running hr, hfetch]

/-! ### What the first fetch sees -/

/-- After reset, each address reads as the image's byte there (R31, R183). -/
theorem memRead_applyReset (image : Image) (s : State) {k : Nat} (hk : k < 256) :
    memRead (applyReset image s).mem k = some image[k] := by
  have hread : (applyReset image s).mem.read k = image[k] := by
    rw [applyReset_mem, Memory.read_ofBytes, if_pos (Nat.zero_le k)]
    simp [hk]
  rw [memRead, Config.memSize, if_pos hk, hread]

/-- After reset, the fetch window is the first three image bytes (R181). -/
theorem fetchBytes_applyReset (image : Image) (s : State) :
    fetchBytes (applyReset image s).mem (applyReset image s).pc.toNat 3 = [image[0], image[1], image[2]] := by
  have hpc : (applyReset image s).pc.toNat = 0 := rfl
  rw [hpc, fetchBytes_succ_of_memRead 2 (memRead_applyReset image s (by decide)),
    fetchBytes_succ_of_memRead 1 (memRead_applyReset image s (by decide)),
    fetchBytes_succ_of_memRead 0 (memRead_applyReset image s (by decide)), fetchBytes]

/-! ### The obligation -/

/-- Settles O3: the fetch window after reset is the first three image bytes; the step runs what they decode
to, and an illegal opcode can only be the first of them. -/
theorem firstStepFetchesTheFirstImageByte : Obligations.FirstStepFetchesTheFirstImageByte := by
  intro image s r
  have hr : r.run = .running := rfl
  refine ⟨fun i rest h => ?decoded, fun b h => ?illegal⟩
  case decoded =>
    rw [← fetchBytes_applyReset image s] at h
    exact step_of_decode_ok hr h
  case illegal =>
    obtain ⟨rfl, hop⟩ := decodeWith_cons_illegal h
    have hop0 : memRead r.mem r.pc.toNat = some image[0] :=
      memRead_applyReset image s (k := 0) (by decide)
    exact ⟨rfl, step_of_fetchInstr_error hr (fetchInstr_illegal hop0 hop)⟩

end Sys2Proof.Proofs
end

section
/-! PROOFS. Memory (spec/20_memory.md): a write inside memory reads back, and the canonical form of a memory is
fixed by what it reads as. -/

namespace Sys2Proof.Proofs

open Sys2Proof Sys2Proof.Machine Sys2Proof.Claims

variable {m n : Memory} {c d : Host.Cell}

/-- A write at an address of memory succeeds with the masked byte (R41). -/
theorem memWrite_of_lt {a : Nat} (ha : a < 256) (m : Memory) (v : Nat) :
    memWrite m a v = some (m.write a (BitVec.ofNat 8 v)) := if_pos ha

/-- A read at an address of memory succeeds (R40). -/
theorem memRead_of_lt {a : Nat} (ha : a < 256) (m : Memory) : memRead m a = some (m.read a) := if_pos ha

/-- Settles O7: inside memory the bounds check passes and the read follows the write; outside it fails. -/
theorem memoryReadsBackWhatWasWritten : Obligations.MemoryReadsBackWhatWasWritten := by
  intro m a v hm
  refine ⟨fun ha => ⟨_, memWrite_of_lt ha m v, ⟨BitVec.ofNat 8 v, ?same, BitVec.toNat_ofNat v 8⟩, ?other⟩,
    fun ha => ⟨if_neg (Nat.not_lt.2 ha), if_neg (Nat.not_lt.2 ha)⟩⟩
  case same => rw [memRead_of_lt ha, Memory.read_write _ _ hm, if_pos rfl]
  case other => exact fun c hc => memRead_write_ne hm _ hc

/-! ### The canonical form -/

/-- A listed cell of canonical memory is read at its address. -/
theorem read_cons_self (c : Host.Cell) (m : Memory) : Memory.read (c :: m) c.1 = c.2 := if_pos rfl

theorem read_cons_of_ne {a : Nat} (h : a ≠ c.1) (m : Memory) : Memory.read (c :: m) a = m.read a := if_neg h

/-- Listed addresses of canonical memory lie inside memory (R22). -/
theorem head_lt_of_wf (h : Memory.wf (c :: m)) : c.1 < 256 := by
  obtain ⟨-, hc, -⟩ := Memory.wf_cons.1 h
  exact hc

/-- Canonical memory reads a byte other than the fill at its first listed address. -/
theorem read_head_ne_fill (h : Memory.wf (c :: m)) : Memory.read (c :: m) c.1 ≠ Config.memFill := by
  obtain ⟨-, -, hfill, -⟩ := Memory.wf_cons.1 h
  rwa [read_cons_self]

/-- Below its first listed address canonical memory reads the fill. -/
theorem read_of_lt_head {a : Nat} (h : Memory.wf (c :: m)) (ha : a < c.1) :
    Memory.read (c :: m) a = Config.memFill := by
  obtain ⟨hlt, -⟩ := Memory.wf_cons.1 h
  exact Memory.read_of_lt (List.forall_mem_cons.2 ⟨ha, fun e he => Nat.lt_trans ha (hlt e he)⟩)

/-- The first listed address is the least one that does not read the fill, so reading fixes it. -/
theorem head_le_of_read_eq (hm : Memory.wf (c :: m)) (hn : Memory.wf (d :: n))
    (h : ∀ a, a < 256 → Memory.read (c :: m) a = Memory.read (d :: n) a) : d.1 ≤ c.1 := by
  by_contra hlt
  exact read_head_ne_fill hm ((h c.1 (head_lt_of_wf hm)).trans (read_of_lt_head hn (Nat.lt_of_not_le hlt)))

/-- Canonical memories that read alike are the same list: they have the same first cell, and tails that read
alike. -/
theorem eq_of_read_eq : ∀ {m n : Memory}, m.wf → n.wf → (∀ a, a < 256 → m.read a = n.read a) → m = n
  | [], [], _, _, _ => rfl
  | [], d :: n, _, hn, h => absurd (h d.1 (head_lt_of_wf hn)).symm (read_head_ne_fill hn)
  | c :: m, [], hm, _, h => absurd (h c.1 (head_lt_of_wf hm)) (read_head_ne_fill hm)
  | c :: m, d :: n, hm, hn, h => by
    obtain ⟨hltm, -, -, hm'⟩ := Memory.wf_cons.1 hm
    obtain ⟨hltn, -, -, hn'⟩ := Memory.wf_cons.1 hn
    have haddr : c.1 = d.1 :=
      Nat.le_antisymm (head_le_of_read_eq hn hm fun a ha => (h a ha).symm) (head_le_of_read_eq hm hn h)
    have hbyte : c.2 = d.2 := by rw [← read_cons_self c m, h c.1 (head_lt_of_wf hm), haddr, read_cons_self]
    have htail : m = n := eq_of_read_eq hm' hn' fun a ha => by
      by_cases hac : a = c.1
      · rw [hac, Memory.read_of_lt hltm, haddr, Memory.read_of_lt hltn]
      · rw [← read_cons_of_ne hac m, h a ha, read_cons_of_ne (haddr ▸ hac)]
    rw [Prod.ext haddr hbyte, htail]

/-- Settles O8: reading fixes the canonical list cell by cell, from the lowest address on. -/
theorem memoryFormIsCanonical : Obligations.MemoryFormIsCanonical := by
  intro m n hm hn h
  refine eq_of_read_eq hm hn fun a ha => Option.some.inj ?_
  rw [← memRead_of_lt ha, ← memRead_of_lt ha, h a ha]

end Sys2Proof.Proofs
end

section
/-! PROOFS. The encoding family (spec/30_encoding.md), continued: decoding an encoding, the bytes of a decoded
instruction, the table's words, and the values that are opcodes. -/

namespace Sys2Proof.Proofs

open Sys2Proof Sys2Proof.Claims

/-! ### The round trip -/

/-- The operand phase reads back the operand bytes of every instruction (R61, R82). -/
theorem operandRoundTrip (i : Instr) : Laws.OperandRoundTrip.Statement i := by
  cases i <;> exact fun _ => rfl

/-- Where the map's values are distinct, an encoding decodes to its instruction (R65). -/
theorem decodeWith_encodeWith {m : OpcodeMap} (hm : Function.Injective m) (i : Instr) (rest : List Byte) :
    decodeWith m (encodeWith m i ++ rest) = .ok (i, rest) := by
  rw [encodeWith, List.cons_append, decodeWith_cons, lookupOp_self hm]
  exact operandRoundTrip i rest

/-- Settles O49: a legal map has distinct values, so the opcode is found under its own value, and the operand
phase reads the operand bytes back. -/
theorem decodeEncodeUnderAnyLegalMap : Obligations.DecodeEncodeUnderAnyLegalMap :=
  fun _ ⟨hinj, _⟩ i rest => decodeWith_encodeWith hinj i rest

/-- What decodes is the encoding of the answer, then the rest (R69). -/
theorem eq_encodeWith_of_decodeWith {m : OpcodeMap} {bytes rest : List Byte} {i : Instr}
    (h : decodeWith m bytes = .ok (i, rest)) : bytes = encodeWith m i ++ rest := by
  cases bytes with
  | nil => cases h
  | cons b bytes =>
    obtain ⟨hop, hbytes⟩ := decodeWith_cons_ok h
    rw [encodeWith, lookupOp_some hop, hbytes, List.cons_append]

/-- Settles O50: the first byte is the one the map gives the operation looked up, and the operand phase takes
the operand bytes whole. -/
theorem decodedBytesAreTheEncoding : Obligations.DecodedBytesAreTheEncoding :=
  fun _ _ _ _ => eq_encodeWith_of_decodeWith

/-! ### The opcode values of the table -/

/-- The table's values are distinct (R66). -/
theorem opcodeMap_injective : Function.Injective opcodeMap := fun a b h => by
  rw [← Option.some_inj, ← lookupOp_opcodeMap a, h, lookupOp_opcodeMap]

theorem decode_encode (i : Instr) (rest : List Byte) : decode (encode i ++ rest) = .ok (i, rest) :=
  decodeWith_encodeWith opcodeMap_injective i rest

/-- A first byte is rejected exactly if it is no operation's value (R68). -/
theorem decode_illegal_iff (b : Byte) (rest : List Byte) :
    decode (b :: rest) = .error (.illegalOpcode b) ↔ b ∉ Op.all.map opcodeMap := by
  rw [List.mem_map]
  constructor
  · rintro h ⟨o, -, rfl⟩
    obtain ⟨-, hnone⟩ := decodeWith_cons_illegal h
    exact lookupOp_none.1 hnone o rfl
  · intro h
    have hnone : lookupOp opcodeMap b = none := lookupOp_none.2 fun o ho => h ⟨o, o.mem_all, ho⟩
    rw [decode, decodeWith_cons, hnone]

/-- Settles O53: the listed values are the map's, in the table's order; the count runs over all bytes. -/
theorem exactlyTheTableOpcodesAreLegal : Obligations.ExactlyTheTableOpcodesAreLegal := by
  refine ⟨decode_illegal_iff, ?count, opcodeMap_injective, rfl, rfl, rfl⟩
  case count => decide +kernel

/-! ### An instruction as one number -/

/-- The lowest byte of a number is the last one written (R61). -/
theorem bytesOfWord_succ (n w : Nat) (b : Byte) :
    bytesOfWord (n + 1) (w * 256 + b.toNat) = bytesOfWord n w ++ [b] := by
  have hb := b.isLt
  have hhigh : (w * 256 + b.toNat) / 256 = w := by omega
  have hlow : BitVec.ofNat 8 (w * 256 + b.toNat) = b := BitVec.eq_of_toNat_eq (by simp; omega)
  rw [bytesOfWord, hhigh, hlow]

theorem bytesOfWord_one (b : Byte) : bytesOfWord 1 b.toNat = [b] := by
  simp [bytesOfWord]

/-- The bytes of an instruction's number are its encoding (R61). -/
theorem bytesOfWord_tableWord (i : Instr) : bytesOfWord i.op.format.length (tableWord i) = encode i := by
  have htwo (o a : Byte) : bytesOfWord 2 (o.toNat * 256 + a.toNat) = [o, a] := by
    rw [bytesOfWord_succ, bytesOfWord_one, List.singleton_append]
  have hthree (o a b : Byte) : bytesOfWord 3 (o.toNat * 65536 + a.toNat * 256 + b.toNat) = [o, a, b] := by
    have hw : o.toNat * 65536 + a.toNat * 256 = (o.toNat * 256 + a.toNat) * 256 := by omega
    rw [hw, bytesOfWord_succ, htwo, List.cons_append, List.singleton_append]
  cases i
  case hlt | ret => exact bytesOfWord_one _
  case prn | push | pop | call | jmp | jeq | jne | not => exact htwo _ _
  all_goals exact hthree _ _ _

/-- Settles O52: the word's bytes are the encoding, then zeros, and an encoding decodes whatever follows. -/
theorem tableWordFieldPositions : Obligations.TableWordFieldPositions := by
  intro i
  have hlen : 8 * i.op.format.length / 8 = i.op.format.length := Nat.mul_div_cancel_left _ (by decide)
  rw [decodeTableWord, tableBytes, hlen, bytesOfWord_tableWord, decode_encode]

/-- Settles O54: the words are literal, so the decoder runs on them. -/
theorem wordsFromTheTableDecode : Obligations.WordsFromTheTableDecode := by
  refine ⟨?_, ?_, ?_, ?_, ?_, ?_, ?_, ?_⟩ <;> rfl

end Sys2Proof.Proofs
end

section
/-! PROOFS. The fetch (spec/40_execution_cycle.md R81, R82): an instruction is fetched exactly where its encoding
stands in memory; every other fetch is one of three faults. Then the obligations about the phases of a step. -/

namespace Sys2Proof.Proofs

open Sys2Proof Sys2Proof.Machine Sys2Proof.Claims

variable {s t : State} {i : Instr} {m : Memory} {a : Nat}

/-! ### Bytes that stand in memory -/

/-- The bytes stand in memory from an address on, all of them inside memory. -/
def HoldsAt (m : Memory) (a : Nat) (bytes : List Byte) : Prop :=
  ∀ k (h : k < bytes.length), memRead m (a + k) = some bytes[k]

theorem holdsAt_nil : HoldsAt m a [] := fun _ h => absurd h (Nat.not_lt_zero _)

theorem holdsAt_cons {b : Byte} {bytes : List Byte} :
    HoldsAt m a (b :: bytes) ↔ memRead m a = some b ∧ HoldsAt m (a + 1) bytes := by
  have haddr (k : Nat) : a + 1 + k = a + (k + 1) := by omega
  constructor
  · intro h
    refine ⟨h 0 (Nat.succ_pos _), fun k hk => ?_⟩
    rw [haddr]
    exact h (k + 1) (Nat.succ_lt_succ hk)
  · rintro ⟨hhead, htail⟩ (_ | k) hk
    · exact hhead
    · exact haddr k ▸ htail k (Nat.lt_of_succ_lt_succ hk)

/-- A fetch window at least as long as the bytes begins with them. -/
theorem fetchBytes_of_holdsAt : ∀ {bytes : List Byte} {a : Nat}, HoldsAt m a bytes →
    ∀ n, fetchBytes m a (bytes.length + n) = bytes ++ fetchBytes m (a + bytes.length) n
  | [], a, _, n => by simp
  | b :: bytes, a, h, n => by
    obtain ⟨hhead, htail⟩ := holdsAt_cons.1 h
    rw [List.length_cons, Nat.add_right_comm, fetchBytes_succ_of_memRead _ hhead, fetchBytes_of_holdsAt htail,
      List.cons_append, Nat.add_assoc, Nat.add_comm 1]

/-- What a fetch window begins with stands in memory. -/
theorem holdsAt_of_fetchBytes : ∀ {bytes rest : List Byte} {a n : Nat},
    fetchBytes m a n = bytes ++ rest → HoldsAt m a bytes
  | [], _, _, _, _ => holdsAt_nil
  | b :: bytes, rest, a, 0, h => by cases h
  | b :: bytes, rest, a, n + 1, h => by
    cases hb : memRead m a with
    | none => simp [fetchBytes, hb] at h
    | some c =>
      rw [fetchBytes_succ_of_memRead n hb, List.cons_append] at h
      obtain ⟨rfl, htail⟩ := List.cons.inj h
      exact holdsAt_cons.2 ⟨hb, holdsAt_of_fetchBytes htail⟩

/-- Bytes that stand in memory end inside it (R22). -/
theorem length_le_of_holdsAt {b : Byte} {bytes : List Byte} (h : HoldsAt m a (b :: bytes)) :
    a + (b :: bytes).length ≤ 256 := by
  have hlast := h bytes.length (Nat.lt_succ_self _)
  obtain ⟨hlt, -⟩ := memRead_eq_some.1 hlast
  rw [List.length_cons]
  omega

/-! ### What the fetch answers -/

/-- A format has at most two operand bytes (R60). -/
theorem operandBytes_le_two (f : Format) : f.operandBytes ≤ 2 := by cases f <;> decide

/-- Every format but N has a first operand byte (R60). -/
theorem ne_n_iff_operandBytes (f : Format) : f ≠ .n ↔ 1 ≤ f.operandBytes := by cases f <;> decide

/-- The formats RR and RI have a second operand byte (R60). -/
theorem rr_or_ri_iff_operandBytes (f : Format) : f = .rr ∨ f = .ri ↔ 2 ≤ f.operandBytes := by
  cases f <;> decide

/-- The longest encoding has three bytes, the width of the fetch window (R60). -/
theorem encode_length_le (i : Instr) : (encode i).length ≤ 3 := by
  rw [encode, encodeWith_length, Format.length]
  exact Nat.add_le_add_left (operandBytes_le_two _) 1

/-- An instruction is fetched exactly if its encoding stands at `pc` (R80 to R82). -/
theorem fetchInstr_ok_iff : fetchInstr s = .ok i ↔ HoldsAt s.mem s.pc.toNat (encode i) := by
  constructor
  · intro h
    obtain ⟨rest, hdecode⟩ := decode_of_fetchInstr_ok h
    exact holdsAt_of_fetchBytes (eq_encodeWith_of_decodeWith hdecode)
  · intro h
    have hwindow := fetchBytes_of_holdsAt h (3 - (encode i).length)
    rw [Nat.add_sub_cancel' (encode_length_le i)] at hwindow
    rw [fetchInstr, hwindow, decode_encode]

/-- A fetched instruction lies inside memory whole (R82). -/
theorem fits_of_fetchInstr_ok (h : fetchInstr s = .ok i) : s.pc.toNat + (encode i).length ≤ 256 :=
  length_le_of_holdsAt (fetchInstr_ok_iff.1 h)

/-- What a running core holds at `pc` is what its step executes (R80). -/
theorem step_of_holdsAt (hr : s.run = .running) (h : HoldsAt s.mem s.pc.toNat (encode i)) :
    step s = exec i s := by
  rw [step_running hr, fetchInstr_ok_iff.2 h]

/-- The operand phase fails only where bytes are missing, at the first missing one (R82). -/
theorem decodeOperands_error {o : Op} {bytes : List Byte} {e : DecodeError}
    (h : decodeOperands o bytes = .error e) :
    e = .noByte (bytes.length + 1) ∧ bytes.length < o.format.operandBytes := by
  have hone (f : Byte → Instr) (h : takeOne f bytes = .error e) :
      e = .noByte (bytes.length + 1) ∧ bytes.length < 1 := by
    rcases bytes with _ | ⟨a, rest⟩ <;> cases h
    exact ⟨rfl, by decide⟩
  have htwo (f : Byte → Byte → Instr) (h : takeTwo f bytes = .error e) :
      e = .noByte (bytes.length + 1) ∧ bytes.length < 2 := by
    rcases bytes with _ | ⟨a, _ | ⟨b, rest⟩⟩ <;> cases h
    · exact ⟨rfl, by decide⟩
    · exact ⟨rfl, by simp⟩
  cases o
  case hlt | ret => cases h
  case prn | push | pop | call | jmp | jeq | jne | not => exact hone _ h
  all_goals exact htwo _ h

/-- The fetch window has one byte for each address inside memory. -/
theorem fetchBytes_length (m : Memory) (a n : Nat) : (fetchBytes m a n).length = min n (256 - a) := by
  rw [fetchBytes_eq, List.length_map, List.length_range]

/-- A failing fetch has met no byte at `pc`, a byte that is no opcode, or the end of memory before the last
operand byte (R81, R82). -/
theorem fetchInstr_error_cases {p : Trap} (h : fetchInstr s = .error p) :
    (256 ≤ s.pc.toNat ∧ p = (.outOfBounds, s.pc.toNat)) ∨
    (∃ b, memRead s.mem s.pc.toNat = some b ∧ lookupOp opcodeMap b = none ∧
      p = (.illegalInstruction, b.toNat)) ∨
    (∃ o, memRead s.mem s.pc.toNat = some (opcodeMap o) ∧ 256 < s.pc.toNat + o.format.length ∧
      p = (.outOfBounds, 256)) := by
  by_cases hpc : 256 ≤ s.pc.toNat
  · rw [fetchInstr_past_end hpc] at h
    cases h
    exact .inl ⟨hpc, rfl⟩
  have hb : memRead s.mem s.pc.toNat = some (s.mem.read s.pc.toNat) := memRead_of_lt (Nat.lt_of_not_le hpc) _
  cases hop : lookupOp opcodeMap (s.mem.read s.pc.toNat) with
  | none =>
    rw [fetchInstr_illegal hb hop] at h
    cases h
    exact .inr (.inl ⟨_, hb, hop, rfl⟩)
  | some o =>
    refine .inr (.inr ⟨o, by rw [hb, lookupOp_some hop], ?_⟩)
    have hlen := fetchBytes_length s.mem (s.pc.toNat + 1) 2
    have htwo := operandBytes_le_two o.format
    rw [fetchInstr, decode, fetchBytes_succ_of_memRead 2 hb, decodeWith_cons, hop] at h
    cases hops : decodeOperands o (fetchBytes s.mem (s.pc.toNat + 1) 2) with
    | ok q =>
      simp only [hops] at h
      cases h
    | error e =>
      obtain ⟨rfl, hshort⟩ := decodeOperands_error hops
      simp only [hops] at h
      cases h
      rw [Format.length]
      refine ⟨by omega, Prod.ext rfl ?_⟩
      show s.pc.toNat + _ = 256
      omega

/-! ### The obligations about the fetch -/

/-- Settles O46: the premise is `HoldsAt` of the encoding. -/
theorem stepRunsTheDecodedInstruction : Obligations.StepRunsTheDecodedInstruction :=
  fun _ _ hr h => ⟨fetchInstr_ok_iff.2 h, step_of_holdsAt hr h⟩

/-- Settles O45: the byte at `pc` is an opcode, so the fetch fails exactly at the end of memory; a fetched
instruction is of that opcode and fits. -/
theorem operandFetchAtTheEndOfMemory : Obligations.OperandFetchAtTheEndOfMemory := by
  intro s o hr ho
  cases hfetch : fetchInstr s with
  | ok i =>
    have hlookup : lookupOp opcodeMap (opcodeMap o) = some i.op := lookupOp_of_fetchInstr_ok ho hfetch
    obtain rfl : o = i.op := Option.some.inj ((lookupOp_opcodeMap o).symm.trans hlookup)
    have hfit := fits_of_fetchInstr_ok hfetch
    rw [encode, encodeWith_length] at hfit
    exact ⟨fun hlong => absurd hfit (Nat.not_le.2 hlong), fun _ => ⟨i, rfl, rfl, by rw [step_running hr, hfetch]⟩⟩
  | error p =>
    obtain ⟨hpc, -⟩ := memRead_eq_some.1 ho
    rcases fetchInstr_error_cases hfetch with ⟨hpast, -⟩ | ⟨b, hb, hnone, -⟩ | ⟨o', ho', hlong, rfl⟩
    · exact absurd hpc (Nat.not_lt.2 hpast)
    · obtain rfl : opcodeMap o = b := Option.some.inj (ho.symm.trans hb)
      rw [lookupOp_opcodeMap] at hnone
      cases hnone
    · obtain rfl : o = o' := opcodeMap_injective (Option.some.inj (ho.symm.trans ho'))
      exact ⟨fun _ => step_of_fetchInstr_error hr hfetch, fun hfit => absurd hfit (Nat.not_le.2 hlong)⟩

/-! ### The first fault in phase order -/

theorem firstTrap_nil (p : Option Trap) : firstTrap [] p = p := rfl

/-- Validation of a list of operands looks at the first one first (R83). -/
theorem firstTrap_cons (b : Byte) (bs : List Byte) (p : Option Trap) : firstTrap (b :: bs) p =
    if 7 < b.toNat then some (.registerIndexOutOfRange, b.toNat) else firstTrap bs p := by
  by_cases hb : 7 < b.toNat
  · simp [firstTrap, regOperandOk_eq_false.2 hb, hb]
  · have hok : regOperandOk b = true := decide_eq_true (Nat.le_of_not_lt hb)
    simp [firstTrap, hok, hb]

/-- Validation passes a well-formed instruction (R69, R83). -/
theorem firstTrap_of_wellFormed (h : i.wellFormed = true) (p : Option Trap) : firstTrap i.regOperands p = p := by
  have hnone : i.regOperands.find? (fun b => !regOperandOk b) = none := by
    simpa [Instr.wellFormed] using h
  rw [firstTrap, hnone]

/-- The format says which operand bytes are register indices (R60, R83). -/
theorem firstTrap_regOperands {opA opB : Byte} (h : i.operandBytes <+: [opA, opB]) (p : Option Trap) :
    firstTrap i.regOperands p =
      if i.op.format ≠ .n ∧ 7 < opA.toNat then some (.registerIndexOutOfRange, opA.toNat)
      else if i.op.format = .rr ∧ 7 < opB.toNat then some (.registerIndexOutOfRange, opB.toNat)
      else p := by
  have hone {a : Byte} (h : [a] <+: [opA, opB]) : a = opA := by simpa using h
  have htwo {a b : Byte} (h : [a, b] <+: [opA, opB]) : a = opA ∧ b = opB := by simpa using h
  cases i
  case hlt | ret => rfl
  case prn | push | pop | call | jmp | jeq | jne | not =>
    obtain rfl := hone h
    simp [Instr.regOperands, Instr.op, Op.format, firstTrap_cons, firstTrap_nil]
  all_goals
    obtain ⟨rfl, rfl⟩ := htwo h
    simp [Instr.regOperands, Instr.op, Op.format, firstTrap_cons, firstTrap_nil]

/-- With legal register operands the model's own check is the table's condition (R84, R150). -/
theorem checkOf_eq_ownFault {opB : Byte} (hmod : ∀ a b, i = .mod a b → b = opB ∧ regOperandOk b = true) :
    checkOf s i = ownFault s opB i.op := by
  have hzero (v : Byte) : v.toNat = 0 ↔ v = 0#8 := BitVec.toNat_inj (y := 0#8)
  cases i
  case mod a b =>
    obtain ⟨rfl, hok⟩ := hmod a b rfl
    simp only [checkOf, Instr.op, ownFault, valueOf_of_ok s hok, hzero]
  case push | call =>
    simp only [checkOf, Instr.op, ownFault, hzero]
    split
    · simp_all
    · rfl
  all_goals rfl

/-- At most two bytes that stand in memory are the first of the two read there. -/
theorem prefix_of_holdsAt : ∀ {bytes : List Byte}, HoldsAt m a bytes → bytes.length ≤ 2 →
    bytes <+: [m.read a, m.read (a + 1)]
  | [], _, _ => List.nil_prefix
  | [b], h, _ => by
    obtain ⟨hb, -⟩ := holdsAt_cons.1 h
    obtain ⟨-, rfl⟩ := memRead_eq_some.1 hb
    simp
  | [b, c], h, _ => by
    obtain ⟨hb, hc⟩ := holdsAt_cons.1 h
    obtain ⟨hc, -⟩ := holdsAt_cons.1 hc
    obtain ⟨-, rfl⟩ := memRead_eq_some.1 hb
    obtain ⟨-, rfl⟩ := memRead_eq_some.1 hc
    exact List.prefix_rfl

/-- A fetched instruction has passed the first three phases; what is left is its own trap (R160). -/
theorem firstFault_of_fetchInstr_ok (h : fetchInstr s = .ok i) : firstFault s = trapOf s i := by
  have hfit := fits_of_fetchInstr_ok h
  rw [encode, encodeWith_length, Format.length] at hfit
  obtain ⟨hop, hoperands⟩ := holdsAt_cons.1 (fetchInstr_ok_iff.1 h)
  obtain ⟨hpc, hread⟩ := memRead_eq_some.1 hop
  have hprefix := prefix_of_holdsAt hoperands (Nat.le_of_succ_le_succ (encode_length_le i))
  have hA : ¬(1 ≤ i.op.format.operandBytes ∧ 256 ≤ s.pc.toNat + 1) := by omega
  have hB : ¬(2 ≤ i.op.format.operandBytes ∧ 256 ≤ s.pc.toNat + 2) := by omega
  rw [← ne_n_iff_operandBytes] at hA
  rw [← rr_or_ri_iff_operandBytes] at hB
  simp only [firstFault, if_neg (Nat.not_le.2 hpc), hread, lookupOp_opcodeMap, if_neg hA, if_neg hB, trapOf,
    firstTrap_regOperands hprefix]
  split
  · rfl
  split
  · rfl
  next hlegal =>
    refine (checkOf_eq_ownFault ?_).symm
    rintro a b rfl
    obtain ⟨-, rfl⟩ : a = _ ∧ b = _ := by simpa [Instr.operandBytes] using hprefix
    exact ⟨rfl, decide_eq_true (Nat.le_of_not_lt fun hbad => hlegal ⟨rfl, hbad⟩)⟩

/-- A failing fetch is the first fault (R160). -/
theorem firstFault_of_fetchInstr_error {p : Trap} (h : fetchInstr s = .error p) : firstFault s = some p := by
  rcases fetchInstr_error_cases h with ⟨hpast, rfl⟩ | ⟨b, hb, hnone, rfl⟩ | ⟨o, ho, hlong, rfl⟩
  · simp only [firstFault, if_pos hpast]
  · obtain ⟨hpc, rfl⟩ := memRead_eq_some.1 hb
    simp only [firstFault, if_neg (Nat.not_le.2 hpc), hnone]
  · obtain ⟨hpc, hread⟩ := memRead_eq_some.1 ho
    rw [Format.length] at hlong
    have htwo := operandBytes_le_two o.format
    simp only [firstFault, if_neg (Nat.not_le.2 hpc), hread, lookupOp_opcodeMap, ne_n_iff_operandBytes,
      rr_or_ri_iff_operandBytes]
    by_cases hlast : s.pc.toNat + 1 = 256
    · rw [if_pos (by omega), hlast]
    · have hsecond : s.pc.toNat + 2 = 256 := by omega
      rw [if_neg (by omega), if_pos (by omega), hsecond]

/-- Settles O43: a failing fetch is the first fault and the step's; a fetched instruction's trap is the first
fault, and without one it commits. -/
theorem stepRaisesTheFirstFaultInPhaseOrder : Obligations.StepRaisesTheFirstFaultInPhaseOrder := by
  intro s hr
  cases hfetch : fetchInstr s with
  | error p =>
    rw [firstFault_of_fetchInstr_error hfetch, step_of_fetchInstr_error hr hfetch]
    exact ⟨fun c n hp => by cases hp; rfl, nofun⟩
  | ok i =>
    rw [firstFault_of_fetchInstr_ok hfetch, step_running hr, hfetch]
    simp only [exec_eq]
    cases htrap : trapOf s i with
    | some p => exact ⟨fun c n hp => by cases hp; rfl, nofun⟩
    | none =>
      exact ⟨nofun, fun _ => ⟨i, commitOf s i, rfl, by rw [htrap, settle], rfl, commitOf_run_ne_failed hr i,
        commitOf_fault s i⟩⟩

/-- Settles O41: validation is the first phase of an instruction, and without a bad operand only its own check
can raise a fault. -/
theorem badRegisterOperandFaults : Obligations.BadRegisterOperandFaults := by
  refine ⟨fun i s b h => exec_bad_operand h, fun i s t r hs hwf h hrec => ?_⟩
  rcases exec_next_cases h with ⟨p, htrap, rfl⟩ | ⟨-, rfl⟩
  · obtain rfl : _ = r := Option.some.inj hrec
    rw [trapOf, firstTrap_of_wellFormed hwf] at htrap
    show p.1 ≠ .registerIndexOutOfRange
    rcases checkOf_cause htrap with ⟨hc, -⟩ | ⟨hc, -⟩ | ⟨hc, -⟩ <;> rw [hc] <;> decide
  · rw [commitOf_fault, hs] at hrec
    cases hrec

end Sys2Proof.Proofs
end

section
/-! PROOFS. Frames: which registers, which memory, which output an instruction touches. First each part of the
commit, then the obligations that bound an instruction's effect. -/

namespace Sys2Proof.Proofs

open Sys2Proof Sys2Proof.Machine Sys2Proof.Claims

variable {s t : State} {i : Instr} {q : RegIdx}

/-! ### What a commit leaves unchanged -/

/-- JEQ's commit writes `pc` alone (R131). -/
theorem commitOf_jeq (s : State) (a : Byte) : commitOf s (.jeq a) =
    s.setPc (bif s.flags.e then zext9 (s.reg (regOf a)) else s.pc + 2) := by
  rw [commitOf]
  cases s.flags.e <;> rfl

/-- JNE's commit writes `pc` alone (R132). -/
theorem commitOf_jne (s : State) (a : Byte) : commitOf s (.jne a) =
    s.setPc (bif s.flags.e then s.pc + 2 else zext9 (s.reg (regOf a))) := by
  rw [commitOf]
  cases s.flags.e <;> rfl

/-- A commit of no stack instruction leaves memory alone (R46). -/
theorem commitOf_mem (hi : isStackInstr i = false) : (commitOf s i).mem = s.mem := by
  cases i
  case push | call | pop | ret => cases hi
  case jeq | jne => simp only [commitOf_jeq, commitOf_jne, State.setPc_mem]
  all_goals rfl

/-- A commit of no stack instruction carries any memory along: it does not read memory (R46). -/
theorem commitOf_setMem (m : Memory) (hi : isStackInstr i = false) :
    commitOf (s.setMem m) i = (commitOf s i).setMem m := by
  cases i
  case push | call | pop | ret => cases hi
  case jeq | jne => simp only [commitOf_jeq, commitOf_jne]; rfl
  all_goals rfl

/-- A commit adds PRN's element to the output or nothing, and carries any earlier output along (R26). -/
theorem commitOf_out (s : State) (i : Instr) : ∃ e, (commitOf s i).out = s.out ++ e ∧
    ((∀ a, i ≠ .prn a) → e = []) ∧
    ∀ o, commitOf { s with out := o } i = { commitOf s i with out := o ++ e } := by
  cases i
  case prn a => exact ⟨[s.reg (regOf a)], rfl, fun h => absurd rfl (h a), fun _ => rfl⟩
  all_goals
    refine ⟨[], ?_, fun _ => rfl, fun o => ?_⟩ <;>
      (simp only [commitOf_jeq, commitOf_jne, List.append_nil]; rfl)

/-! ### Registers -/

/-- A legal operand byte names exactly the register the meanings use. -/
theorem named_of_ok {b : Byte} (h : regOperandOk b = true) : named b = [regOf b] := by
  rw [named, regIndex_of_ok h, Option.toList_some]

/-- A register is named by its own operand byte alone (R62). -/
theorem mem_named_iff {b : Byte} : q ∈ named b ↔ b = regByte q := by
  rw [named, Option.mem_toList, regIndex_eq_some]

/-- A register that a legal operand byte does not name is not the one the meanings use. -/
theorem ne_regOf_of_notMem {b : Byte} (h : regOperandOk b = true) (hq : q ∉ named b) : q ≠ regOf b := by
  rw [named_of_ok h] at hq
  exact fun he => hq (List.mem_singleton.2 he)

theorem eq_regOf_of_mem {b : Byte} (h : regOperandOk b = true) (hq : q ∈ named b) : q = regOf b := by
  rw [named_of_ok h] at hq
  exact List.mem_singleton.1 hq

/-- A commit leaves every register outside the table's "writes" column alone (R11). -/
theorem commitOf_reg (hok : ∀ b ∈ i.regOperands, regOperandOk b = true) (hq : q ∉ writtenRegs i) :
    (commitOf s i).reg q = s.reg q := by
  cases i
  case cmp | prn | hlt | jmp => rfl
  case jeq | jne => simp only [commitOf_jeq, commitOf_jne, State.setPc_reg]
  case push | call | ret =>
    have h7 : q ≠ 7 := fun h => hq (List.mem_singleton.2 h)
    simp [commitOf, h7]
  case pop a =>
    obtain ⟨h7, ha⟩ := not_or.1 (List.mem_cons.not.1 hq)
    simp [commitOf, h7, ne_regOf_of_notMem (hok a (.head _)) ha]
  case ldi a _ | addi a _ | not a | add a _ | mul a _ | mod a _ | and a _ | or a _ | xor a _ | shl a _ | shr a _ =>
    simp [commitOf, commitRR, ne_regOf_of_notMem (hok a (.head _)) hq]

/-- Writes to two registers commute. -/
theorem setReg_comm {r : RegIdx} (h : q ≠ r) (v w : Byte) :
    (s.setReg q v).setReg r w = (s.setReg r w).setReg q v := by
  have hval : q.val ≠ r.val := Fin.val_ne_of_ne h
  simp only [State.setReg, Vector.set_comm _ _ hval]

/-- The later of two writes to one register stands. -/
theorem setReg_setReg (s : State) (q : RegIdx) (v w : Byte) : (s.setReg q v).setReg q w = s.setReg q w := by
  simp only [State.setReg, Vector.set_set]

theorem reg_setReg_of_ne {r : RegIdx} (h : q ≠ r) (v : Byte) : (s.setReg q v).reg r = s.reg r := by
  rw [State.setReg_reg, if_neg (Ne.symm h)]

theorem sp_setReg_of_ne (h : q ≠ 7) (v : Byte) : (s.setReg q v).sp = s.sp := reg_setReg_of_ne h v

/-- A push does not see a register it neither pushes nor counts (R42). -/
theorem pushed_setReg (h : q ≠ 7) (v : Byte) (x : Nat) : (s.setReg q v).pushed x = (s.pushed x).setReg q v := by
  rw [State.pushed, sp_setReg_of_ne h, State.setSp, setReg_comm (r := Config.spIndex) h]
  rfl

/-- A pop does not see a register other than the stack pointer (R43). -/
theorem popped_setReg (h : q ≠ 7) (v : Byte) : (s.setReg q v).popped = s.popped.setReg q v := by
  rw [State.popped, sp_setReg_of_ne h]
  exact setReg_comm (s := s.setMem (s.mem.write s.sp.toNat 0#8)) (r := Config.spIndex) h v (s.sp + 1#8)

/-- A register that an instruction reads not and writes not is carried through its commit (R11). -/
theorem commitOf_setReg_unwritten (v : Byte) (hok : ∀ b ∈ i.regOperands, regOperandOk b = true)
    (hread : q ∉ readRegs s i) (hwrite : q ∉ writtenRegs i) :
    commitOf (s.setReg q v) i = (commitOf s i).setReg q v := by
  cases i
  case hlt => rfl
  case ret =>
    have h7 : q ≠ 7 := fun h => hread (List.mem_singleton.2 h)
    simp only [commitOf, popped_setReg h7, sp_setReg_of_ne h7]
    rfl
  case pop a =>
    have h7 : q ≠ 7 := fun h => hread (List.mem_singleton.2 h)
    have ha := ne_regOf_of_notMem (hok a (.head _)) (not_or.1 (List.mem_cons.not.1 hwrite)).2
    simp only [commitOf, popped_setReg h7, sp_setReg_of_ne h7, setReg_comm ha]
    rfl
  case push a | call a =>
    obtain ⟨h7, ha⟩ := not_or.1 (List.mem_cons.not.1 hread)
    have ha := ne_regOf_of_notMem (hok a (.head _)) ha
    simp only [commitOf, pushed_setReg h7, reg_setReg_of_ne ha]
    rfl
  case ldi a _ | addi a _ | not a =>
    have ha := ne_regOf_of_notMem (hok a (.head _)) hwrite
    simp only [commitOf, reg_setReg_of_ne ha, setReg_comm ha]
    rfl
  case jmp a | prn a =>
    have ha := ne_regOf_of_notMem (hok a (.head _)) hread
    simp only [commitOf, reg_setReg_of_ne ha]
    rfl
  case jeq a =>
    simp only [commitOf_jeq, State.setReg_flags]
    cases he : s.flags.e with
    | false => rfl
    | true =>
      rw [readRegs, if_pos he] at hread
      rw [reg_setReg_of_ne (ne_regOf_of_notMem (hok a (.head _)) hread)]
      rfl
  case jne a =>
    simp only [commitOf_jne, State.setReg_flags]
    cases he : s.flags.e with
    | true => rfl
    | false =>
      rw [readRegs, if_neg (by simp [he])] at hread
      rw [reg_setReg_of_ne (ne_regOf_of_notMem (hok a (.head _)) hread)]
      rfl
  case add a b | mul a b | mod a b | and a b | or a b | xor a b | shl a b | shr a b | cmp a b =>
    obtain ⟨ha, hb⟩ := not_or.1 (List.mem_append.not.1 hread)
    have ha := ne_regOf_of_notMem (hok a (.head _)) ha
    have hb := ne_regOf_of_notMem (hok b (.tail _ (.head _))) hb
    simp only [commitOf, commitRR, reg_setReg_of_ne ha, reg_setReg_of_ne hb, setReg_comm ha]
    rfl

/-- A register that an instruction writes unread makes no difference to its commit (R11). -/
theorem commitOf_setReg_written (v : Byte) (hok : ∀ b ∈ i.regOperands, regOperandOk b = true)
    (hread : q ∉ readRegs s i) (hwrite : q ∈ writtenRegs i) : commitOf (s.setReg q v) i = commitOf s i := by
  cases i
  case ldi a _ =>
    obtain rfl := eq_regOf_of_mem (hok a (.head _)) hwrite
    simp only [commitOf, setReg_setReg]
  case pop a =>
    have h7 : q ≠ 7 := fun h => hread (List.mem_singleton.2 h)
    obtain rfl := eq_regOf_of_mem (hok a (.head _)) ((List.mem_cons.1 hwrite).resolve_left h7)
    simp only [commitOf, popped_setReg h7, sp_setReg_of_ne h7, setReg_setReg, State.setReg_mem]
  case push | call =>
    obtain rfl := List.mem_singleton.1 hwrite
    exact absurd (.head _) hread
  case add | mul | mod | and | or | xor | shl | shr => exact absurd (List.mem_append_left _ hwrite) hread
  case addi | not | ret => exact absurd hwrite hread
  case cmp | jmp | jeq | jne | prn | hlt => cases hwrite

/-- An instruction's own check does not see a register outside the "reads" column (R11). -/
theorem checkOf_setReg (v : Byte) (hok : ∀ b ∈ i.regOperands, regOperandOk b = true)
    (hread : q ∉ readRegs s i) : checkOf (s.setReg q v) i = checkOf s i := by
  have hsp (h7 : 7 ∈ readRegs s i) : (s.setReg q v).sp = s.sp := sp_setReg_of_ne (ne_of_mem_of_not_mem h7 hread).symm v
  cases i
  case mod a b =>
    have hb := ne_regOf_of_notMem (hok b (.tail _ (.head _))) (not_or.1 (List.mem_append.not.1 hread)).2
    simp only [checkOf, reg_setReg_of_ne hb]
  case push | call | pop | ret => simp only [checkOf, hsp (.head _)]
  all_goals rfl

/-- The fault after validation matters only where validation passes. -/
theorem firstTrap_congr {operands : List Byte} {p p' : Option Trap}
    (h : (∀ b ∈ operands, regOperandOk b = true) → p = p') : firstTrap operands p = firstTrap operands p' := by
  cases hf : operands.find? fun b => !regOperandOk b with
  | some b => simp only [firstTrap, hf]
  | none => rw [h (by simpa using hf)]

/-- A register that an instruction does not read decides no fault of it (R11). -/
theorem trapOf_setReg (v : Byte) (hread : q ∉ readRegs s i) : trapOf (s.setReg q v) i = trapOf s i :=
  firstTrap_congr fun hok => checkOf_setReg v hok hread

/-! ### Frames of executing an instruction -/

/-- What an instruction answers is a fault, or a commit with legal operands. -/
theorem exec_frame {P : State → Prop} (h : exec i s = .next t) (hfail : ∀ c n, P (s.failWith c n))
    (hcommit : (∀ b ∈ i.regOperands, regOperandOk b = true) → P (commitOf s i)) : P t := by
  rcases exec_next_cases h with ⟨p, -, rfl⟩ | ⟨htrap, rfl⟩
  · exact hfail p.1 p.2
  · exact hcommit (regOperands_ok htrap)

theorem exec_reg (h : exec i s = .next t) (hq : q ∉ writtenRegs i) : t.reg q = s.reg q :=
  exec_frame (P := fun t => t.reg q = s.reg q) h (fun _ _ => rfl) fun hok => commitOf_reg hok hq

theorem exec_mem (h : exec i s = .next t) (hi : isStackInstr i = false) : t.mem = s.mem :=
  exec_frame (P := fun t => t.mem = s.mem) h (fun _ _ => rfl) fun _ => commitOf_mem hi

theorem exec_memSame (h : exec i s = .next t) (hi : isStackInstr i = false) : MemSame s t := fun _ => by
  rw [exec_mem h hi]

theorem exec_flags (h : exec i s = .next t) (hi : ∀ a b, i ≠ .cmp a b) : t.flags = s.flags :=
  exec_frame (P := fun t => t.flags = s.flags) h (fun _ _ => rfl) fun _ => commitOf_flags s hi

theorem exec_out (h : exec i s = .next t) (hi : ∀ a, i ≠ .prn a) : t.out = s.out := by
  refine exec_frame (P := fun t => t.out = s.out) h (fun _ _ => rfl) fun _ => ?_
  obtain ⟨e, hout, hnil, -⟩ := commitOf_out s i
  rw [hout, hnil hi, List.append_nil]

/-- Only HLT and a fault change the run state, and only a fault writes the record (R24, R25). -/
theorem exec_status (h : exec i s = .next t) : (t.run = s.run ∧ t.fault = s.fault) ∨
    (i = .hlt ∧ t.run = .halted ∧ t.fault = s.fault) ∨ ∃ c n, t = faulted s c n := by
  rcases exec_next_cases h with ⟨p, -, rfl⟩ | ⟨-, rfl⟩
  · exact .inr (.inr ⟨p.1, p.2, rfl⟩)
  · rw [commitOf_run, commitOf_fault]
    by_cases hi : i = .hlt
    · exact .inr (.inl ⟨hi, if_pos hi, rfl⟩)
    · exact .inl ⟨if_neg hi, rfl⟩

/-- Without HLT the run state and the record stay, or a fault is taken. -/
theorem exec_status_of_ne_hlt (h : exec i s = .next t) (hi : i ≠ .hlt) :
    (t.run = s.run ∧ t.fault = s.fault) ∨ ∃ c n, t = faulted s c n :=
  (exec_status h).imp_right fun hend => hend.resolve_left fun hhlt => hi hhlt.1

/-! ### The obligations -/

/-- Settles O17: the instructions listed write the register their first byte names, and are neither stack
instruction, CMP, PRN nor HLT. -/
theorem registerInstructionsFrame : Obligations.RegisterInstructionsFrame := by
  intro i a s t hi h
  have hkind : writtenRegs i = named a ∧ isStackInstr i = false ∧ (∀ a b, i ≠ .cmp a b) ∧ (∀ a, i ≠ .prn a) ∧
      i ≠ .hlt := by
    obtain ⟨b, rfl | rfl | rfl | rfl | rfl | rfl | rfl | rfl | rfl | rfl | rfl⟩ := hi <;>
      exact ⟨rfl, rfl, nofun, nofun, nofun⟩
  obtain ⟨hwritten, hstack, hcmp, hprn, hhlt⟩ := hkind
  refine ⟨fun q hq => exec_reg h ?_, exec_memSame h hstack, exec_flags h hcmp, exec_out h hprn,
    exec_status_of_ne_hlt h hhlt⟩
  rwa [hwritten, mem_named_iff]

/-- Settles O18: the instructions listed write no register and are no stack instructions. -/
theorem noRegisterInstructionsFrame : Obligations.NoRegisterInstructionsFrame := by
  intro i s t hi h
  have hkind : writtenRegs i = [] ∧ isStackInstr i = false := by
    obtain rfl | ⟨a, b, rfl | rfl | rfl | rfl | rfl⟩ := hi <;> exact ⟨rfl, rfl⟩
  obtain ⟨hwritten, hstack⟩ := hkind
  exact ⟨fun q => exec_reg h (hwritten ▸ List.not_mem_nil), exec_memSame h hstack, exec_flags h, exec_out h,
    exec_status h⟩

/-- A fault leaves memory alone, so a commit's memory frame is the instruction's. -/
theorem exec_memSameBut {addr : Nat} (h : exec i s = .next t) (hcommit : MemSameBut addr s (commitOf s i)) :
    MemSameBut addr s t :=
  exec_frame h (fun _ _ _ _ => rfl) fun _ => hcommit

/-- A push changes the byte at its address alone (R42, R46). -/
theorem memSameBut_push (hm : s.mem.wf) (v : Nat) : MemSameBut (pushAddr s) s (s.pushed v) :=
  fun _ ha => memRead_write_ne hm _ ha

/-- A pop changes the byte at its address alone (R43, R46). -/
theorem memSameBut_pop (hm : s.mem.wf) : MemSameBut (popAddr s) s s.popped :=
  fun _ ha => memRead_write_ne hm _ ha

/-- Settles O19: PUSH and CALL write register 7 alone, and their commit's memory is the push's. -/
theorem pushAndCallFrame : Obligations.PushAndCallFrame := by
  intro i a s t hm hi h
  have hkind : writtenRegs i = [7] ∧ (∀ a b, i ≠ .cmp a b) ∧ (∀ a, i ≠ .prn a) ∧ i ≠ .hlt ∧
      ∃ v, (commitOf s i).mem = (s.pushed v).mem := by
    obtain rfl | rfl := hi <;> exact ⟨rfl, nofun, nofun, nofun, _, rfl⟩
  obtain ⟨hwritten, hcmp, hprn, hhlt, v, hmem⟩ := hkind
  refine ⟨fun q hq => exec_reg h ?regs, exec_memSameBut h ?mem, exec_flags h hcmp, exec_out h hprn,
    exec_status_of_ne_hlt h hhlt⟩
  case regs => rwa [hwritten, List.mem_singleton]
  case mem =>
    rw [MemSameBut, hmem]
    exact memSameBut_push hm v

/-- Settles O20: RET writes register 7, POP also the register it names; their commit's memory is the pop's. -/
theorem popAndRetFrame : Obligations.PopAndRetFrame := by
  intro i s t hm hi h
  have hkind : (∀ q, q ≠ 7 → i ≠ .pop (regByte q) → q ∉ writtenRegs i) ∧ (∀ a b, i ≠ .cmp a b) ∧
      (∀ a, i ≠ .prn a) ∧ i ≠ .hlt ∧ (commitOf s i).mem = s.popped.mem := by
    obtain rfl | ⟨a, rfl⟩ := hi
    · exact ⟨fun q h7 _ hq => h7 (List.mem_singleton.1 hq), nofun, nofun, nofun, rfl⟩
    · refine ⟨fun q h7 hpop hq => hpop ?_, nofun, nofun, nofun, rfl⟩
      rw [mem_named_iff.1 ((List.mem_cons.1 hq).resolve_left h7)]
  obtain ⟨hwritten, hcmp, hprn, hhlt, hmem⟩ := hkind
  refine ⟨fun q h7 hpop => exec_reg h (hwritten q h7 hpop), exec_memSameBut h ?mem, exec_flags h hcmp,
    exec_out h hprn, exec_status_of_ne_hlt h hhlt⟩
  case mem =>
    rw [MemSameBut, hmem]
    exact memSameBut_pop hm

/-- PRN commits its register's value to the output (R141). -/
theorem exec_prn (r : RegIdx) (s : State) :
    exec (.prn (regByte r)) s = .next ((s.emit (s.reg r)).advance 2) :=
  onReg_regByte s r _

/-- An emitted element adds one line to the console text (R26, R142). -/
theorem consoleText_emit (s : State) (v : Byte) : consoleText (s.emit v) = consoleText s ++ outputLine v := by
  simp [consoleText]

/-- Every instruction appends to the output, and the rest of its effect does not depend on it (R26). -/
theorem exec_appends (i : Instr) (s : State) (o : List Byte) : ∃ t e, exec i s = .next t ∧ t.out = s.out ++ e ∧
    exec i { s with out := o } = .next { t with out := o ++ e } := by
  have htrap : trapOf { s with out := o } i = trapOf s i := trapOf_congr (fun _ => rfl) i
  obtain ⟨e, hout, -, hany⟩ := commitOf_out s i
  rw [exec_eq, exec_eq, htrap, hany o]
  cases trapOf s i with
  | some p => exact ⟨_, [], rfl, (List.append_nil _).symm, by rw [List.append_nil]; rfl⟩
  | none => exact ⟨_, e, rfl, hout, rfl⟩

/-- A step only appends to the output. -/
theorem step_out_prefix (h : step s = .next t) : s.out <+: t.out := by
  obtain ⟨-, ⟨p, -, rfl⟩ | ⟨i, -, he⟩⟩ := step_next_cases h
  · exact List.prefix_rfl
  · obtain ⟨t', e, ht, hout, -⟩ := exec_appends i s []
    obtain rfl : t = t' := Host.Outcome.next.inj (he.symm.trans ht)
    exact ⟨e, hout.symm⟩

/-- Settles O16: each instruction appends, PRN its one element; a run is a chain of such steps. -/
theorem outputGrowsByPrnAlone : Obligations.OutputGrowsByPrnAlone := by
  refine ⟨fun i s t => exec_out, fun r s => ⟨_, exec_prn r s, rfl, consoleText_emit s _⟩, exec_appends,
    fun s t h => ?_⟩
  induction h with
  | refl => exact List.prefix_rfl
  | tail _ hstep ih => exact ih.trans (step_out_prefix hstep)

/-- POP of a non-empty stack commits the byte at `SP` to its register, after the increment (R102, R104). -/
theorem exec_pop (r : RegIdx) (h : s.sp.toNat < 0xF4) : exec (.pop (regByte r)) s =
    .next ((s.popped.setReg r (s.mem.read s.sp.toNat)).advance 2) :=
  (onReg_regByte s r _).trans (popByte_ok h)

/-- Settles O11: outside the "writes" column a commit changes no register; outside the "reads" column a register
decides no fault, and is carried through the commit or overwritten by it. -/
theorem registersReadAndWrittenAsTabulated : Obligations.RegistersReadAndWrittenAsTabulated := by
  refine ⟨fun i s t h q => exec_reg h, ?reads, fun r s h => ⟨_, exec_pop r h, ?popped, ?pointer⟩⟩
  case popped => simp [popAddr]
  case pointer =>
    intro hr
    simp [Ne.symm hr, State.sp_eq]
  case reads =>
    intro i s q v hread
    have hsame (u : State) : RegsSameBut q u (u.setReg q v) := fun p hp => reg_setReg_of_ne hp.symm v
    have hself (u : State) : (u.setReg q v).reg q = v := by simp
    rw [exec_eq, exec_eq, trapOf_setReg v hread]
    cases htrap : trapOf s i with
    | some p =>
      exact ⟨_, _, rfl, rfl, hsame (s.failWith p.1 p.2), rfl, rfl, ⟨rfl, rfl, rfl, rfl⟩,
        fun _ => hself s, fun _ hrun => absurd rfl hrun⟩
    | none =>
      refine ⟨_, _, rfl, rfl, ?_⟩
      by_cases hwrite : q ∈ writtenRegs i
      · rw [commitOf_setReg_written v (regOperands_ok htrap) hread hwrite]
        exact ⟨fun _ _ => rfl, rfl, rfl, ⟨rfl, rfl, rfl, rfl⟩, fun hno => absurd hwrite hno, fun _ _ => rfl⟩
      · rw [commitOf_setReg_unwritten v (regOperands_ok htrap) hread hwrite]
        exact ⟨hsame _, rfl, rfl, ⟨rfl, rfl, rfl, rfl⟩, fun _ => hself _, fun hyes => absurd hyes hwrite⟩

end Sys2Proof.Proofs
end

section
/-! PROOFS. The invariant of the state (Safety.lean): a trap's record is true of the untouched state, a commit keeps
each clause; then the obligation. -/

namespace Sys2Proof.Proofs

open Sys2Proof Sys2Proof.Machine Sys2Proof.Claims

variable {s t : State} {i : Instr} {p : Trap}

/-! ### Faults -/

/-- The record that a trap writes is true of the state it is taken from (R150, R159). -/
def TrapExplains (s : State) (p : Trap) : Prop := FaultRecord.Explains ⟨p.1, p.2, s.pc⟩ s

/-- A fault whose record is true of the state keeps the invariant (R158). -/
theorem coreInv_failWith (hs : CoreInv s) (hp : TrapExplains s p) : CoreInv (s.failWith p.1 p.2) := by
  refine ⟨hs.memCanonical, hs.pcInRange, hs.flagsExclusive, ⟨fun _ => rfl, fun _ => rfl⟩, fun r hr => ?_⟩
  obtain rfl := Option.some.inj hr
  exact hp

/-- A format has at most three bytes, so only the last two addresses are too near the end of memory (R82). -/
theorem fetch_trapExplains (hs : CoreInv s) (h : fetchInstr s = .error p) : TrapExplains s p := by
  refine ⟨rfl, ?_⟩
  rcases fetchInstr_error_cases h with ⟨hpast, rfl⟩ | ⟨b, hb, hnone, rfl⟩ | ⟨o, -, hlong, rfl⟩
  · have hpc : s.pc.toNat = 256 := Nat.le_antisymm hs.pcInRange hpast
    exact ⟨hpc, by omega⟩
  · exact ⟨b, hb, hnone, rfl⟩
  · have htwo := operandBytes_le_two o.format
    rw [Format.length] at hlong
    exact ⟨rfl, by omega⟩

/-- A trap behind a guard is the one that stands there, and the guard holds. -/
theorem guardedTrap_eq {c : Prop} [Decidable c] {q : Trap} (h : (if c then some q else none) = some p) :
    c ∧ q = p := by
  obtain ⟨hc, hq⟩ := Option.ite_none_right_eq_some.1 h
  exact ⟨hc, Option.some.inj hq⟩

/-- The condition behind an instruction's own check is the one its record reports (R150). -/
theorem check_trapExplains (hok : ∀ b ∈ i.regOperands, regOperandOk b = true) (h : checkOf s i = some p) :
    TrapExplains s p := by
  refine ⟨rfl, ?_⟩
  cases i
  case mod a b =>
    obtain ⟨hzero, rfl⟩ := guardedTrap_eq h
    have hb : b.toNat = (regOf b).val := by
      conv_lhs => rw [regByte_regOf (hok b (.tail _ (.head _))), regByte_toNat]
    exact ⟨regOf b, hb, hzero⟩
  case push | call =>
    obtain ⟨hsp, rfl⟩ := guardedTrap_eq h
    exact ⟨(congrArg BitVec.toNat hsp).symm, hsp⟩
  case pop | ret =>
    obtain ⟨hsp, rfl⟩ := guardedTrap_eq h
    exact ⟨rfl, hsp⟩
  all_goals cases h

/-- A bad operand's record gives a byte that is no index (R156). -/
theorem exec_trapExplains (h : trapOf s i = some p) : TrapExplains s p := by
  rw [trapOf, firstTrap] at h
  split at h
  · next b hfind =>
    cases h
    have hbad : regOperandOk b = false := by simpa using List.find?_some hfind
    exact ⟨rfl, regOperandOk_eq_false.1 hbad, Nat.le_of_lt_succ b.isLt⟩
  · next hfind => exact check_trapExplains (by simpa using hfind) h

/-! ### Commits -/

/-- A commit keeps memory canonical: it writes nothing, a pushed byte, or the cleared cell. -/
theorem commitOf_mem_wf (hm : s.mem.wf) (i : Instr) : (commitOf s i).mem.wf := by
  cases hi : isStackInstr i with
  | false => rwa [commitOf_mem hi]
  | true =>
    cases i
    case push | call | pop | ret => exact Memory.wf_write _ hm (BitVec.isLt _)
    all_goals cases hi

/-- At most one of the three flags is set (R18). -/
def FlagsExclusive (f : Flags) : Prop :=
  (f.l = false ∨ f.g = false) ∧ (f.l = false ∨ f.e = false) ∧ (f.g = false ∨ f.e = false)

theorem flagsExclusive_compareBytes (a b : Byte) : FlagsExclusive (compareBytes a b) := by
  simp only [FlagsExclusive, compareBytes_l, compareBytes_g, compareBytes_e, decide_eq_false_iff_not,
    ← BitVec.toNat_inj]
  omega

/-- Only CMP writes the flags, and it sets one of them (R19). -/
theorem flagsExclusive_commitOf (hf : FlagsExclusive s.flags) (i : Instr) : FlagsExclusive (commitOf s i).flags := by
  by_cases hi : ∃ a b, i = .cmp a b
  · obtain ⟨a, b, rfl⟩ := hi
    exact flagsExclusive_compareBytes _ _
  · rwa [commitOf_flags s fun a b h => hi ⟨a, b, h⟩]

/-- A committing instruction that fits in memory keeps the invariant of a running core. -/
theorem coreInv_commitOf (hs : CoreInv s) (hr : s.run = .running) (hfit : s.pc.toNat + (encode i).length ≤ 256)
    (htrap : trapOf s i = none) : CoreInv (commitOf s i) := by
  have hempty : (commitOf s i).fault = none := by
    rw [commitOf_fault, ← Option.not_isSome_iff_eq_none, hs.recordIffFailed, hr]
    decide
  refine ⟨commitOf_mem_wf hs.memCanonical i, ?pc, flagsExclusive_commitOf hs.flagsExclusive i, ?recordIff, ?record⟩
  case pc =>
    rw [commitOf_pc_toNat hfit (regOperands_ok htrap)]
    exact nextPc_le hfit
  case recordIff =>
    rw [hempty]
    exact ⟨nofun, fun hf => absurd hf (commitOf_run_ne_failed hr i)⟩
  case record =>
    rw [hempty]
    exact nofun

/-- Settles O5: a step is a fault of the fetch, a fault of the instruction, or a commit of an instruction that
fits. -/
theorem stepKeepsCoreInv : Obligations.StepKeepsCoreInv := by
  intro s t hs h
  obtain ⟨hr, ⟨p, hfetch, rfl⟩ | ⟨i, hfetch, he⟩⟩ := step_next_cases h
  · exact coreInv_failWith hs (fetch_trapExplains hs hfetch)
  · rcases exec_next_cases he with ⟨p, htrap, rfl⟩ | ⟨htrap, rfl⟩
    · exact coreInv_failWith hs (exec_trapExplains htrap)
    · exact coreInv_commitOf hs hr (fits_of_fetchInstr_ok hfetch) htrap

end Sys2Proof.Proofs
end

section
/-! PROOFS. The stack (spec/20_memory.md section 2): what a push and a pop leave at their address, each stack
instruction's commit and fault; then the obligations. -/

namespace Sys2Proof.Proofs

open Sys2Proof Sys2Proof.Machine Sys2Proof.Claims

variable {s : State}

/-! ### The cell and the pointer -/

/-- A push's byte, masked to 8 bits, stands at its address (R42). -/
theorem memRead_pushed (hm : s.mem.wf) (v : Nat) :
    memRead (s.pushed v).mem (pushAddr s) = some (BitVec.ofNat 8 v) := memRead_write_same hm _ _

/-- A pop leaves its cell cleared (R43). -/
theorem memRead_popped (hm : s.mem.wf) : memRead s.popped.mem (popAddr s) = some 0#8 := memRead_write_same hm _ _

/-- A pop reads the byte at its address (R43). -/
theorem memRead_popAddr (s : State) : memRead s.mem (popAddr s) = some (s.mem.read s.sp.toNat) := memRead_byte _ _

theorem sp_ne_zero_of_pos (h : 1 ≤ s.sp.toNat) : s.sp ≠ 0#8 := fun h0 => by
  rw [h0] at h
  exact absurd h (by decide)

/-- A push with room decrements register 7 and leaves the others (R42). -/
theorem pushed_reg_seven (h : s.sp ≠ 0#8) (v : Nat) : ((s.pushed v).reg 7).toNat = (s.reg 7).toNat - 1 := by
  rw [State.pushed_reg, if_pos rfl, sp_sub_toNat h, State.sp_eq]

theorem regsSameBut_pushed (s : State) (v : Nat) : RegsSameBut 7 s (s.pushed v) := fun q hq => by
  rw [State.pushed_reg, if_neg hq]

/-- A pop below the base increments register 7 and leaves the others (R43). -/
theorem popped_reg_seven (h : s.sp.toNat < 0xF4) : (s.popped.reg 7).toNat = (s.reg 7).toNat + 1 := by
  rw [State.popped_reg, if_pos rfl, sp_add_toNat h, State.sp_eq]

theorem regsSameBut_popped (s : State) : RegsSameBut 7 s s.popped := fun q hq => by
  rw [State.popped_reg, if_neg hq]

/-! ### The instructions -/

/-- PUSH with room commits the old value of its register (R101, R104). -/
theorem exec_push (r : RegIdx) (h : s.sp ≠ 0#8) : exec (.push (regByte r)) s =
    .next ((s.pushed (s.reg r).toNat).advance 2) :=
  (onReg_regByte s r _).trans (pushByte_ok h _)

/-- CALL with room pushes the return address, then reads its register (R133). -/
theorem exec_call (r : RegIdx) (h : s.sp ≠ 0#8) : exec (.call (regByte r)) s =
    .next ((s.pushed (s.pc.toNat + 2)).setPc (zext9 ((s.pushed (s.pc.toNat + 2)).reg r))) :=
  (onReg_regByte s r _).trans (pushByte_ok h _)

/-- RET of a non-empty stack commits the byte at `SP` to `pc` (R134). -/
theorem exec_ret (h : s.sp.toNat < 0xF4) : exec .ret s =
    .next (s.popped.setPc (zext9 (s.mem.read s.sp.toNat))) :=
  popByte_ok (k := fun v t => .next (t.setPc (zext9 v))) h

/-- PUSH without room raises StackOverflow (R155). -/
theorem exec_push_overflow (r : RegIdx) (h : s.sp = 0#8) : exec (.push (regByte r)) s =
    .next (s.failWith .stackOverflow 0) :=
  (onReg_regByte s r _).trans (pushByte_overflow h _)

/-- CALL without room raises StackOverflow (R155). -/
theorem exec_call_overflow (r : RegIdx) (h : s.sp = 0#8) : exec (.call (regByte r)) s =
    .next (s.failWith .stackOverflow 0) :=
  (onReg_regByte s r _).trans (pushByte_overflow h _)

/-- The byte pushed from a register is its value. -/
theorem memRead_pushed_reg (hm : s.mem.wf) (r : RegIdx) :
    memRead (s.pushed (s.reg r).toNat).mem (pushAddr s) = some (s.reg r) := by
  rw [memRead_pushed hm, BitVec.ofNat_toNat, BitVec.setWidth_eq]

/-! ### The obligations of one instruction -/

/-- Settles O22: PUSH's commit is the push of the old register value. -/
theorem pushStoresTheRegister : Obligations.PushStoresTheRegister := fun r s hm h =>
  ⟨_, exec_push r h, pushed_reg_seven h (s.reg r).toNat, regsSameBut_pushed s (s.reg r).toNat, 
    memRead_pushed_reg hm r, memSameBut_push hm _, rfl, rfl, rfl, rfl, rfl⟩

/-- Settles O23: POP's commit is the pop, then the write of the popped byte. -/
theorem popLoadsTheRegister : Obligations.PopLoadsTheRegister := by
  intro r s hm h
  refine ⟨_, exec_pop r h, ?value, ?pointer, ?others, memRead_popped hm, memSameBut_pop hm, rfl, rfl, rfl, rfl, rfl⟩
  case value => rw [memRead_popAddr, State.advance_reg, State.setReg_reg, if_pos rfl]
  case pointer =>
    intro hr
    rw [State.advance_reg, reg_setReg_of_ne hr, popped_reg_seven h]
  case others =>
    intro q h7 hq
    rw [State.advance_reg, reg_setReg_of_ne hq.symm, regsSameBut_popped s q h7]

/-- Settles O31: CALL's commit is the push of the return address, then the jump. -/
theorem callPushesTheReturnAddress : Obligations.CallPushesTheReturnAddress := fun r s hm h =>
  ⟨_, exec_call r h, pushed_reg_seven h (s.pc.toNat + 2), regsSameBut_pushed s (s.pc.toNat + 2),
    ⟨_, memRead_pushed hm _, BitVec.toNat_ofNat _ 8⟩, memSameBut_push hm _, zext9_toNat _, rfl, rfl, rfl, rfl⟩

/-- Settles O32: RET's commit is the pop, then the jump to the popped byte. -/
theorem retPopsTheProgramCounter : Obligations.RetPopsTheProgramCounter := fun s hm h =>
  ⟨_, exec_ret h, ⟨_, memRead_popAddr s, zext9_toNat _⟩, popped_reg_seven h, regsSameBut_popped s,
    memRead_popped hm, memSameBut_pop hm, rfl, rfl, rfl, rfl⟩

/-- Settles O24: the operand byte 7 names the pointer itself, read before a push, written after a pop, and read
after CALL's push. -/
theorem stackInstructionsNamingRegisterSeven : Obligations.StackInstructionsNamingRegisterSeven := by
  intro s hm
  refine ⟨fun h => ?push, fun h => ?pop, fun h => ?call⟩
  case push =>
    have hs := sp_ne_zero_of_pos h
    obtain ⟨t, ht, hsp, -, hcell, -⟩ := pushStoresTheRegister 7 s hm hs
    rw [pushAddr, sp_sub_toNat hs] at hcell
    exact ⟨t, ht, hcell, hsp⟩
  case pop =>
    obtain ⟨t, ht, hvalue, -, -, hcell, -⟩ := popLoadsTheRegister 7 s hm h
    exact ⟨t, ht, hvalue.symm, hcell⟩
  case call =>
    obtain ⟨t, ht, hsp, -, -, -, hpc, -⟩ := callPushesTheReturnAddress 7 s hm (sp_ne_zero_of_pos h)
    exact ⟨t, ht, hpc.trans hsp, hsp⟩

/-- Settles O40: PUSH and CALL share the push operation, whose check comes before any write. -/
theorem pushAtTheFloorFaults : Obligations.PushAtTheFloorFaults :=
  fun _ r h => ⟨exec_push_overflow r h, exec_call_overflow r h⟩

/-- Settles O9: the other instructions neither read nor write memory; the accesses of the four are their
commits'. -/
theorem onlyStackInstructionsTouchMemory : Obligations.OnlyStackInstructionsTouchMemory := by
  refine ⟨fun i s t hi h => exec_memSame h hi, ?unread, ?push, ?call, ?pop, ?ret⟩
  case unread =>
    intro i s m hi
    have htrap : trapOf (s.setMem m) i = trapOf s i := trapOf_congr (fun _ => rfl) i
    rw [exec_eq, exec_eq, htrap, commitOf_setMem m hi]
    cases trapOf s i with
    | some p => exact ⟨_, rfl, rfl⟩
    | none => exact ⟨_, rfl, rfl⟩
  case push =>
    intro r s hm h
    exact ⟨_, exec_push r h, memRead_pushed_reg hm r, memSameBut_push hm _⟩
  case call =>
    intro r s hm h
    exact ⟨_, exec_call r h, ⟨_, memRead_pushed hm _, BitVec.toNat_ofNat _ 8⟩, memSameBut_push hm _⟩
  case pop =>
    intro r s hm h
    obtain ⟨t, ht, hvalue, -, -, hcell, hsame, -⟩ := popLoadsTheRegister r s hm h
    exact ⟨t, ht, hvalue.symm, hcell, hsame⟩
  case ret =>
    intro s hm h
    exact ⟨_, exec_ret h, ⟨_, memRead_popAddr s, zext9_toNat _⟩, memRead_popped hm, memSameBut_pop hm⟩

/-! ### Instructions in sequence -/

/-- An instruction keeps memory canonical. -/
theorem exec_mem_wf {i : Instr} {t : State} (hm : s.mem.wf) (h : exec i s = .next t) : t.mem.wf :=
  exec_frame (P := fun t => t.mem.wf) h (fun _ _ => hm) fun _ => commitOf_mem_wf hm i

/-- Settles O25: the pop reads the pushed byte at the address of the push and undoes the decrement. -/
theorem pushThenPopRoundTrips : Obligations.PushThenPopRoundTrips := by
  intro a b s hm hb hlow hhigh
  have hs := sp_ne_zero_of_pos hlow
  obtain ⟨t, ht, hsp, hregs, hcell, hmem, -, hflags, hrun, hfault, hout⟩ := pushStoresTheRegister a s hm hs
  have haddr : popAddr t = pushAddr s := hsp.trans (sp_sub_toNat hs).symm
  have hbase : t.sp.toNat < 0xF4 := by
    rw [State.sp_eq] at hlow hhigh ⊢
    omega
  obtain ⟨u, hu, hvalue, hsp', hregs', hclear, hmem', -, hflags', hrun', hfault', hout'⟩ :=
    popLoadsTheRegister b t (exec_mem_wf hm ht) hbase
  rw [haddr] at hvalue hclear hmem'
  refine ⟨t, u, ht, hu, ?value, ?regs, fun c hc => (hmem' c hc).trans (hmem c hc), hclear, hflags'.trans hflags,
    hrun'.trans hrun, hfault'.trans hfault, hout'.trans hout⟩
  case value => exact Option.some.inj (hvalue.symm.trans hcell)
  case regs =>
    intro q hq
    by_cases h7 : q = 7
    · subst h7
      have hpointer := hsp' hb
      rw [State.sp_eq] at hlow
      exact BitVec.eq_of_toNat_eq (by omega)
    · exact (hregs' q h7 hq).trans (hregs q h7)

/-- Settles O33: the cell that RET reads holds the return address, and its increment undoes CALL's decrement. -/
theorem callThenRetComesBack : Obligations.CallThenRetComesBack := by
  intro r s hm hlow hhigh
  have hs := sp_ne_zero_of_pos hlow
  obtain ⟨t, ht, hsp, -, ⟨b, hb, hreturn⟩, -⟩ := callPushesTheReturnAddress r s hm hs
  have haddr : t.sp.toNat = pushAddr s := hsp.trans (sp_sub_toNat hs).symm
  refine ⟨t, ht, fun u husp hucell => ?_⟩
  have hbase : u.sp.toNat < 0xF4 := by
    rw [husp, haddr, pushAddr, sp_sub_toNat hs]
    omega
  refine ⟨_, exec_ret hbase, ?pc, ?pointer⟩
  case pc =>
    have hread : u.mem.read u.sp.toNat = b := by
      rw [← Option.some_inj, ← memRead_popAddr, popAddr, hucell, haddr, hb]
    rw [State.setPc_pc, zext9_toNat, hread, hreturn]
  case pointer =>
    refine BitVec.eq_of_toNat_eq ?_
    rw [State.setPc_sp, State.popped_sp, sp_add_toNat hbase, husp, haddr, pushAddr, sp_sub_toNat hs]
    omega

/-- One more execution goes on from where the ones before it ended. -/
theorem execTimes_succ {i : Instr} {n : Nat} {t u : State} (h : execTimes i n s = some t)
    (he : exec i t = .next u) : execTimes i (n + 1) s = some u := by
  simp only [execTimes, h, he]

/-- `n` pushes from reset complete, each one lower, as long as there is room (R44). -/
theorem execTimes_push_reset (r : RegIdx) : ∀ n, n ≤ 244 →
    ∃ t, execTimes (.push (regByte r)) n State.reset = some t ∧ t.run = .running ∧ t.sp.toNat = 244 - n
  | 0, _ => ⟨State.reset, rfl, rfl, rfl⟩
  | n + 1, hn => by
    obtain ⟨t, ht, hrun, hsp⟩ := execTimes_push_reset r n (Nat.le_of_succ_le hn)
    have hroom : t.sp ≠ 0#8 := sp_ne_zero_of_pos (by omega)
    refine ⟨_, execTimes_succ ht (exec_push r hroom), hrun, ?_⟩
    rw [State.advance_sp, State.pushed_sp, sp_sub_toNat hroom, hsp, Nat.sub_sub]

/-- Settles O26: the pointer starts at 244 and each push lowers it by one; at 0 there is no room. -/
theorem resetStackHoldsExactly244Bytes : Obligations.ResetStackHoldsExactly244Bytes := by
  intro r n hn
  obtain ⟨t, ht, hrun, hsp⟩ := execTimes_push_reset r n hn
  refine ⟨t, ht, hrun, hsp, fun hfull => exec_push_overflow r (BitVec.eq_of_toNat_eq ?_)⟩
  rw [hsp, hfull]
  rfl

/-- A running core with the HLT opcode at `pc` halts in one step (R140). -/
theorem step_hlt (hr : s.run = .running) (h : memRead s.mem s.pc.toNat = some 0x01#8) :
    step s = .next (s.advance 1).halt :=
  step_of_holdsAt (i := .hlt) hr (holdsAt_cons.2 ⟨h, holdsAt_nil⟩)

/-- Settles O10: the push stores the HLT opcode where the next fetch looks for an opcode. -/
theorem pushedByteIsExecutedByTheNextStep : Obligations.PushedByteIsExecutedByTheNextStep := by
  intro s r hm hr hop hoperand hsp haddr hvalue
  have hholds : HoldsAt s.mem s.pc.toNat (encode (.push (regByte r))) :=
    holdsAt_cons.2 ⟨hop, holdsAt_cons.2 ⟨hoperand, holdsAt_nil⟩⟩
  have hpush : step s = .next ((s.pushed (s.reg r).toNat).advance 2) :=
    (step_of_holdsAt hr hholds).trans (exec_push r hsp)
  have hpc : ((s.pushed (s.reg r).toNat).advance 2).pc.toNat = pushAddr s := by
    have hinside : pushAddr s < 256 := BitVec.isLt _
    rw [haddr] at hinside ⊢
    exact advance_pc_toNat hinside.le
  have hcell : memRead ((s.pushed (s.reg r).toNat).advance 2).mem (pushAddr s) = some 0x01#8 :=
    (memRead_pushed_reg hm r).trans (congrArg some hvalue)
  have hhlt := step_hlt (s := (s.pushed (s.reg r).toNat).advance 2) hr (hpc ▸ hcell)
  exact ⟨_, _, hpush, hhlt, rfl, BitVec.add_assoc s.pc 2 1⟩

end Sys2Proof.Proofs
end

section
/-! PROOFS. Shifts, jumps, HLT and PRN (spec/42_alu.md section 4, spec/43_control_flow.md, spec/44_system.md): each
instruction's commit; then the obligations. -/

namespace Sys2Proof.Proofs

open Sys2Proof Sys2Proof.Machine Sys2Proof.Claims

variable {s : State}

/-! ### Shifts -/

/-- A left shift by the width or more leaves 0 (R122). -/
theorem aluShl_of_long {a b : Byte} (h : 8 ≤ b.toNat) : aluShl a b = 0#8 := by
  refine BitVec.eq_of_toNat_eq ?_
  have hdvd : 256 ∣ a.toNat * 2 ^ b.toNat := Dvd.dvd.mul_left (Nat.pow_dvd_pow 2 h) _
  rw [aluShl_toNat, Nat.mod_eq_zero_of_dvd hdvd]
  rfl

/-- A right shift past the value's highest bit leaves 0. -/
theorem aluShr_of_lt {a b : Byte} (h : a.toNat < 2 ^ b.toNat) : aluShr a b = 0#8 := by
  refine BitVec.eq_of_toNat_eq ?_
  rw [aluShr_toNat, Nat.div_eq_of_lt h]
  rfl

/-- The destination of a two-register operation holds its result. -/
theorem completesWith_aluRR {i : Instr} {f : Byte → Byte → Byte} {a b : RegIdx} {v : Byte}
    (hexec : exec i s = aluRR f (regByte a) (regByte b) s) (hv : f (s.reg a) (s.reg b) = v) :
    CompletesWith i s fun t => t.reg a = v := by
  exact ⟨_, hexec.trans (aluRR_regByte f a b s), by simp [hv]⟩

/-- Settles O28: a byte is less than 2 ^ 8, and every number less than its own power of 2. -/
theorem longShiftsGiveZero : Obligations.LongShiftsGiveZero := by
  intro ra rb s
  refine ⟨fun hlong => ⟨?shl, ?shr⟩, ?self⟩
  case shl => exact completesWith_aluRR (f := aluShl) rfl (aluShl_of_long hlong)
  case shr =>
    have hlt : (s.reg ra).toNat < 2 ^ (s.reg rb).toNat :=
      Nat.lt_of_lt_of_le (BitVec.isLt _) (Nat.pow_le_pow_right (by decide) hlong)
    exact completesWith_aluRR (f := aluShr) rfl (aluShr_of_lt hlt)
  case self => exact completesWith_aluRR (f := aluShr) rfl (aluShr_of_lt Nat.lt_two_pow_self)

/-! ### Jumps -/

/-- JMP commits its register to `pc` (R130). -/
theorem exec_jmp (r : RegIdx) (s : State) : exec (.jmp (regByte r)) s = .next (s.setPc (zext9 (s.reg r))) :=
  onReg_regByte s r _

/-- JEQ commits its branch on `E` (R131). -/
theorem exec_jeq (r : RegIdx) (s : State) : exec (.jeq (regByte r)) s =
    .next (s.setPc (bif s.flags.e then zext9 (s.reg r) else s.pc + 2)) := by
  rw [exec_commits (by simp [Instr.regOperands]) rfl, commitOf_jeq, regOf_regByte]

/-- JNE commits its branch on `E` (R132). -/
theorem exec_jne (r : RegIdx) (s : State) : exec (.jne (regByte r)) s =
    .next (s.setPc (bif s.flags.e then s.pc + 2 else zext9 (s.reg r))) := by
  rw [exec_commits (by simp [Instr.regOperands]) rfl, commitOf_jne, regOf_regByte]

/-- Settles O29: JMP's commit writes `pc` alone. -/
theorem jmpGoesToTheRegister : Obligations.JmpGoesToTheRegister := fun r s =>
  ⟨_, exec_jmp r s, zext9_toNat _, fun _ => rfl, fun _ => rfl, rfl, rfl, rfl, rfl⟩

/-- Settles O30: the commits of JEQ and JNE write `pc` alone, by the value of `E`. -/
theorem jeqAndJneBranchOnEqual : Obligations.JeqAndJneBranchOnEqual := by
  intro r s
  refine ⟨⟨_, exec_jeq r s, fun he => ?_, fun he => ?_, fun _ => rfl, fun _ => rfl, rfl, rfl, rfl, rfl⟩,
    _, exec_jne r s, fun he => ?_, fun he => ?_, fun _ => rfl, fun _ => rfl, rfl, rfl, rfl, rfl⟩ <;>
    simp [he]

/-! ### HLT and PRN -/

/-- Settles O34: HLT's commit advances and halts, and a halted core takes no step. -/
theorem hltStopsTheCore : Obligations.HltStopsTheCore := fun s =>
  ⟨(s.advance 1).halt, rfl, rfl, rfl, fun _ => rfl, fun _ => rfl, rfl, rfl, rfl,
    fun _ => step_ne_next_of_stopped (by rw [State.halt_run]; decide)⟩

/-- Settles O35: the operand byte is validated, then the register's value is emitted. -/
theorem prnEmitsTheRegister : Obligations.PrnEmitsTheRegister := fun s =>
  ⟨fun _ => rfl, fun _ ha => onReg_bad s ha _,
    fun r => ⟨_, exec_prn r s, rfl, rfl, fun _ => rfl, fun _ => rfl, rfl, rfl, rfl⟩⟩

/-! ### Output lines -/

/-- The digit characters write the number, without a leading zero (R142). -/
def WritesNumber (ds : List Char) (n : Nat) : Prop :=
  digitsValue ds = n ∧ (∀ c ∈ ds, 48 ≤ c.toNat ∧ c.toNat ≤ 57) ∧ ds ≠ [] ∧ (ds.head? = some '0' → ds = ['0'])

/-- One more digit at the end multiplies by ten and adds it. -/
theorem digitsValue_append {d : Nat} (hd : d < 10) (ds : List Char) :
    digitsValue (ds ++ [digitChar d]) = 10 * digitsValue ds + d := by
  simp [digitsValue, digitChar_toNat hd]

theorem digitChar_range {d : Nat} (hd : d < 10) : 48 ≤ (digitChar d).toNat ∧ (digitChar d).toNat ≤ 57 := by
  rw [digitChar_toNat hd]
  omega

/-- One digit writes its own number. -/
theorem writesNumber_digit {d : Nat} (hd : d < 10) : WritesNumber [digitChar d] d := by
  refine ⟨?value, fun c hc => ?range, List.cons_ne_nil _ _, fun h => congrArg (· :: []) (Option.some.inj h)⟩
  case value => exact (digitsValue_append hd []).trans (Nat.zero_add d)
  case range =>
    rw [List.mem_singleton.1 hc]
    exact digitChar_range hd

/-- A digit after the digits of a number other than 0 makes no leading zero. -/
theorem writesNumber_append {ds : List Char} {n d : Nat} (h : WritesNumber ds n) (hn : 0 < n) (hd : d < 10) :
    WritesNumber (ds ++ [digitChar d]) (10 * n + d) := by
  obtain ⟨rfl, hrange, hne, hzero⟩ := h
  refine ⟨digitsValue_append hd ds, fun c hc => ?range, List.append_ne_nil_of_left_ne_nil hne _, fun hhead => ?head⟩
  case range =>
    rcases List.mem_append.1 hc with hc | hc
    · exact hrange c hc
    · rw [List.mem_singleton.1 hc]
      exact digitChar_range hd
  case head =>
    rw [List.head?_append_of_ne_nil _ hne] at hhead
    rw [hzero hhead] at hn
    exact absurd hn (by decide)

/-- The digits of an output element write its value. -/
theorem writesNumber_decimalDigits (v : Byte) : WritesNumber (decimalDigits v) v.toNat := by
  have hv := v.isLt
  unfold decimalDigits
  split
  · exact writesNumber_digit ‹_›
  split
  · have hone : WritesNumber [digitChar (v.toNat / 10)] (v.toNat / 10) := writesNumber_digit (by omega)
    have htwo := writesNumber_append hone (by omega) (d := v.toNat % 10) (by omega)
    rwa [Nat.div_add_mod] at htwo
  · have hone : WritesNumber [digitChar (v.toNat / 100)] (v.toNat / 100) := writesNumber_digit (by omega)
    have htwo := writesNumber_append hone (by omega) (d := v.toNat / 10 % 10) (by omega)
    have hthree := writesNumber_append htwo (by omega) (d := v.toNat % 10) (by omega)
    have hsum : 10 * (10 * (v.toNat / 100) + v.toNat / 10 % 10) + v.toNat % 10 = v.toNat := by omega
    rwa [hsum] at hthree

/-- Settles O36: the line is the digits, which write the number, then LF. -/
theorem outputLineIsTheDecimalNumber : Obligations.OutputLineIsTheDecimalNumber :=
  fun v => ⟨decimalDigits v, rfl, writesNumber_decimalDigits v⟩

/-! ### LDI then PRN -/

/-- Settles O37: the two fetches see LDI r,v and PRN r, and PRN emits what LDI wrote. -/
theorem ldiThenPrnPrintsTheValue : Obligations.LdiThenPrnPrintsTheValue := by
  intro r v s hr hmem
  have hldi : HoldsAt s.mem s.pc.toNat (encode (.ldi (regByte r) v)) :=
    holdsAt_cons.2 ⟨hmem 0, holdsAt_cons.2 ⟨hmem 1, holdsAt_cons.2 ⟨hmem 2, holdsAt_nil⟩⟩⟩
  have hprn : HoldsAt s.mem (s.pc.toNat + 3) (encode (.prn (regByte r))) :=
    holdsAt_cons.2 ⟨hmem 3, holdsAt_cons.2 ⟨hmem 4, holdsAt_nil⟩⟩
  have hpc : ((s.setReg r v).advance 3).pc.toNat = s.pc.toNat + 3 :=
    advance_pc_toNat (s := s.setReg r v) (length_le_of_holdsAt hldi)
  have hfirst := (step_of_holdsAt hr hldi).trans (exec_ldi r v s)
  have hsecond := (step_of_holdsAt (s := (s.setReg r v).advance 3) hr (hpc ▸ hprn)).trans (exec_prn r _)
  refine ⟨_, _, hfirst, hsecond, hr, (consoleText_emit ((s.setReg r v).advance 3) _).trans ?_⟩
  rw [State.advance_reg, State.setReg_reg, if_pos rfl]
  rfl

end Sys2Proof.Proofs
end

section
/-! PROOFS. The host's port (spec/10_state.md sections 3, 8, 9; spec/70_reset_and_hazards.md): what reset and load
leave, what the host observes; then the obligations. -/

namespace Sys2Proof.Proofs

open Sys2Proof Sys2Proof.Machine Sys2Proof.Claims

/-! ### Reset and load -/

/-- Reset puts 0x00 into every register but the stack pointer (R34). -/
theorem reset_reg : ∀ r : RegIdx, r ≠ 7 → State.reset.reg r = 0#8 := by decide

/-- The bare reset reads the fill everywhere (R34). -/
theorem memRead_reset {k : Nat} (hk : k < 256) : memRead State.reset.mem k = some 0#8 := memRead_of_lt hk []

/-- Resetting with the image of no bytes is the bare reset. -/
theorem applyReset_empty : ∃ empty : Image, imageOfBytes [] = some empty ∧ ∀ s, applyReset empty s = State.reset := by
  obtain ⟨image, himage, hbytes⟩ := imageOfBytes_fits (bytes := []) (Nat.zero_le _)
  refine ⟨image, himage, fun s => ?_⟩
  rw [applyReset_eq, hbytes, List.nil_append, Memory.ofBytes_fill]
  rfl

/-- Settles O1: reset is the bare reset with the image in memory. -/
theorem resetLeavesTheListedValues : Obligations.ResetLeavesTheListedValues :=
  ⟨fun image s => ⟨reset_reg, rfl, rfl, rfl, rfl, rfl, rfl, fun k => memRead_applyReset image s k.isLt⟩,
    fun k => memRead_reset k.isLt, applyReset_empty⟩

/-- Filling a list up with the default of a read changes no read. -/
theorem getD_append_replicate {α : Type} (l : List α) (n k : Nat) (d : α) :
    (l ++ List.replicate n d).getD k d = l.getD k d := by
  rcases Nat.lt_or_ge k l.length with hk | hk
  · exact List.getD_append _ _ _ _ hk
  · rw [List.getD_append_right _ _ _ _ hk, List.getD_eq_default _ _ hk]
    simp

/-- Settles O2: the image is the bytes, then the fill, and reset puts it into memory. -/
theorem imageHoldsTheLoadedBytes : Obligations.ImageHoldsTheLoadedBytes := by
  intro bytes
  refine ⟨fun hfits => ?_, imageOfBytes_long⟩
  obtain ⟨image, himage, hbytes⟩ := imageOfBytes_fits hfits
  refine ⟨image, himage, fun s k => ?_⟩
  rw [memRead_applyReset image s k.isLt]
  refine congrArg some ?_
  calc image[k.val] = image.toList.getD k.val 0 := by simp
    _ = (bytes ++ List.replicate (256 - bytes.length) 0).getD k.val 0 := by rw [hbytes]; rfl
    _ = bytes.getD k.val 0 := getD_append_replicate bytes _ k.val 0

/-- With any canonical memory the reset state has the invariant. -/
theorem coreInv_reset_setMem {m : Memory} (hm : m.wf) : CoreInv (State.reset.setMem m) :=
  ⟨hm, Nat.zero_le _, ⟨.inl rfl, .inl rfl, .inl rfl⟩, ⟨nofun, nofun⟩, nofun⟩

/-- Settles O4: the empty memory and a loaded one are canonical, and the rest is the bare reset. -/
theorem coreInvHoldsAfterReset : Obligations.CoreInvHoldsAfterReset :=
  ⟨coreInv_reset_setMem Memory.wf_nil, fun image s => coreInv_reset_setMem (applyReset_mem_wf image s)⟩

/-! ### Observation -/

/-- Two states are observed alike if run state, record, output and, when not Running, all agree (R32). -/
theorem observe_eq_iff {s t : State} : observe s = observe t ↔ s.run = t.run ∧ s.fault = t.fault ∧ s.out = t.out ∧
    (s.run ≠ .running → s = t) := by
  rw [observe, observe, Observation.mk.injEq]
  refine and_congr_right fun hrun => and_congr_right fun _ => and_congr_right fun _ => ?_
  rw [← hrun]
  by_cases hr : s.run = .running <;> simp [hr]

/-- Settles O6: the whole state is among the outputs exactly when not Running; the packed byte is checked flag by
flag. -/
theorem observationPortShowsTheRun : Obligations.ObservationPortShowsTheRun := by
  refine ⟨fun s t hr => ?running, fun s t hr => ?stopped, fun f => ?packed⟩
  case running =>
    rw [observe_eq_iff]
    exact ⟨fun ⟨hrun, hfault, hout, _⟩ => ⟨hrun.symm.trans hr, hfault, hout⟩,
      fun ⟨hrun, hfault, hout⟩ => ⟨hr.trans hrun.symm, hfault, hout, fun hne => absurd hr hne⟩⟩
  case stopped =>
    rw [observe_eq_iff]
    exact ⟨fun ⟨_, _, _, h⟩ => h hr, fun h => h ▸ ⟨rfl, rfl, rfl, fun _ => rfl⟩⟩
  case packed =>
    have all : ∀ l g e : Bool, (packedFlags ⟨l, g, e⟩).toNat = 4 * l.toNat + 2 * g.toNat + e.toNat := by decide
    exact all f.l f.g f.e

end Sys2Proof.Proofs
end
